-- ==== Sys2Proof/Word.lean ====
section
/-!
DEFINITION. The widths of the block (spec/00_scope.md R7, R9, R11): bytes, 32-bit words, 64-bit lengths, the 128-bit
descriptor and response words, payloads, and the four lanes.
-/

namespace Sys2Proof

/-- A byte (R11). -/
abbrev Byte := BitVec 8

/-- A lane, a seed, a mixing value, a digest: `W = 32` bits, unsigned (R7, R9). -/
abbrev Word := BitVec 32

/-- `TOTAL_LEN`, the `LEN` and `COUNT` fields and the cap: `LEN_BITS = 64` bits, unsigned (R7, R8, R71). -/
abbrev Len := BitVec 64

/-- A command descriptor `CW` (R71) or a response word `RW` (R77). They are 128-bit values, not byte strings (R83). -/
abbrev Desc := BitVec 128

/-- A payload: a byte sequence, the first byte the one the host supplied first (R11, R50). -/
abbrev Payload := List Byte

/-- The four 32-bit lane accumulators `LANE[0]` .. `LANE[3]` (R22). -/
structure Lanes where
  l0 : Word
  l1 : Word
  l2 : Word
  l3 : Word
deriving DecidableEq, Repr

/-- `LANE[i]`. -/
def Lanes.get (L : Lanes) (i : Fin 4) : Word :=
  match i with
  | 0 => L.l0
  | 1 => L.l1
  | 2 => L.l2
  | 3 => L.l3

end Sys2Proof
end

