-- ==== Sys2Proof/Syntax.lean ====
section
/-!
DEFINITION. The instructions: the six commands of spec/30_encoding.md R72, one constructor for each row of
spec/opcode_table.json, each with the operands that decoding gives it (R75).
-/

namespace Sys2Proof

/-- The opcodes of R72. -/
inductive Op where
  | xinit | xreset | xwrite | xdigest | xsum | xinfo
deriving DecidableEq, Repr

/-- A decoded command (R75): `XINIT(seed)`, `XRESET`, `XWRITE(P)`, `XDIGEST`, `XSUM(seed, P)`, `XINFO`. -/
inductive Instr where
  /-- Create or re-create the session with a seed (R120). -/
  | xinit (seed : Word)
  /-- Re-create the session with the seed it has (R121). -/
  | xreset
  /-- Append bytes to the session (R130). -/
  | xwrite (payload : Payload)
  /-- Finalize and return the digest (R141). -/
  | xdigest
  /-- Hash a whole byte sequence in one command (R150). -/
  | xsum (seed : Word) (payload : Payload)
  /-- Return the constants (R152). -/
  | xinfo
deriving DecidableEq, Repr

/-- The opcode of a command. -/
def Instr.op : Instr → Op
  | .xinit _ => .xinit
  | .xreset => .xreset
  | .xwrite _ => .xwrite
  | .xdigest => .xdigest
  | .xsum _ _ => .xsum
  | .xinfo => .xinfo

/-- The payload a command carries: empty for the four commands that take none (R74). -/
def Instr.payload : Instr → Payload
  | .xinit _ => []
  | .xreset => []
  | .xwrite p => p
  | .xdigest => []
  | .xsum _ p => p
  | .xinfo => []

end Sys2Proof
end

