-- ==== Sys2Proof/WellFormed.lean ====
section
/-!
DEFINITION. Which instructions a descriptor can stand for: the payload length must fit the 64-bit `LEN` field
(spec/30_encoding.md R71, R74). Every seed is legal (R73).
-/

namespace Sys2Proof

/-- The payload length fits the `LEN` field (R71, R74). -/
def Payload.fits (p : Payload) : Bool := decide (p.length < 2 ^ 64)

/-- An instruction has an encoding: the check of each constructor. -/
def Instr.wf : Instr → Bool
  | .xinit _ => true
  | .xreset => true
  | .xwrite p => Payload.fits p
  | .xdigest => true
  | .xsum _ p => Payload.fits p
  | .xinfo => true

end Sys2Proof
end

