-- ==== Sys2Proof/Decode.lean ====
section
/-!
DEFINITION. Decoding and encoding of commands (spec/30_encoding.md R70 to R76, R82). Decoding is total, reads no state,
and rejects by name. The encoder is written from the same tables.
-/

namespace Sys2Proof

/-! ### The fields of a descriptor (R71) -/

/-- `OPC = CW[127:120]`. -/
def Desc.opc (cw : Desc) : BitVec 8 := cw.extractLsb' 120 8

/-- `RSV = CW[119:96]`. -/
def Desc.rsv (cw : Desc) : BitVec 24 := cw.extractLsb' 96 24

/-- `SEED = CW[95:64]`. -/
def Desc.seed (cw : Desc) : Word := cw.extractLsb' 64 32

/-- `LEN = CW[63:0]`. -/
def Desc.len (cw : Desc) : Len := cw.extractLsb' 0 64

/-- A descriptor from its fields, `RSV = 0`: the opcode in the most significant bits (R71). -/
def mkDesc (opc : BitVec 8) (seed : Word) (len : Len) : Desc := opc ++ 0#24 ++ seed ++ len

/-! ### The opcode map (R72) and the operand fields of each row (R73) -/

/-- The opcode map of R72 from code to command. -/
def opOf? (opc : BitVec 8) : Option Op :=
  if opc = 0x01 then some .xinit
  else if opc = 0x02 then some .xreset
  else if opc = 0x03 then some .xwrite
  else if opc = 0x04 then some .xdigest
  else if opc = 0x05 then some .xsum
  else if opc = 0x06 then some .xinfo
  else none

/-- The opcode map of R72 from command to code. -/
def Op.code : Op → BitVec 8
  | .xinit => 0x01
  | .xreset => 0x02
  | .xwrite => 0x03
  | .xdigest => 0x04
  | .xsum => 0x05
  | .xinfo => 0x06

/-- Whether the row of R73 uses the `SEED` field. -/
def Op.usesSeed : Op → Bool
  | .xinit => true
  | .xreset => false
  | .xwrite => false
  | .xdigest => false
  | .xsum => true
  | .xinfo => false

/-- Whether the row of R73 uses the `LEN` field, and so carries a payload. -/
def Op.usesLen : Op → Bool
  | .xinit => false
  | .xreset => false
  | .xwrite => true
  | .xdigest => false
  | .xsum => true
  | .xinfo => false

/-- The command of a row, with the operands it takes (R75 step 5). -/
def Op.instr (op : Op) (seed : Word) (p : Payload) : Instr :=
  match op with
  | .xinit => .xinit seed
  | .xreset => .xreset
  | .xwrite => .xwrite p
  | .xdigest => .xdigest
  | .xsum => .xsum seed p
  | .xinfo => .xinfo

/-- A row of the table of R73: a descriptor selects it when `CW and mask = match`. -/
structure TableRow where
  op : Op
  matchBits : Desc
  mask : Desc
deriving DecidableEq, Repr

/-- The `match` and `mask` columns of R73, and of spec/opcode_table.json. -/
def opcodeTable : List TableRow :=
  [⟨.xinit, 0x01000000000000000000000000000000, 0xFFFFFFFF00000000FFFFFFFFFFFFFFFF⟩,
   ⟨.xreset, 0x02000000000000000000000000000000, 0xFFFFFFFFFFFFFFFFFFFFFFFFFFFFFFFF⟩,
   ⟨.xwrite, 0x03000000000000000000000000000000, 0xFFFFFFFFFFFFFFFF0000000000000000⟩,
   ⟨.xdigest, 0x04000000000000000000000000000000, 0xFFFFFFFFFFFFFFFFFFFFFFFFFFFFFFFF⟩,
   ⟨.xsum, 0x05000000000000000000000000000000, 0xFFFFFFFF000000000000000000000000⟩,
   ⟨.xinfo, 0x06000000000000000000000000000000, 0xFFFFFFFFFFFFFFFFFFFFFFFFFFFFFFFF⟩]

/-! ### Decoding -/

/-- Why a pair `(CW, P)` is `Illegal`: the steps of R75, in their order. -/
inductive Illegal where
  /-- `RSV` is not zero (R75 step 1). -/
  | reservedNotZero
  /-- `OPC` is not in R72 (R75 step 2). -/
  | unknownOpcode
  /-- `SEED` is not zero in a command that takes no seed (R75 step 3). -/
  | unusedSeedNotZero
  /-- `LEN` is not zero in a command that takes no payload (R75 step 3). -/
  | unusedLenNotZero
  /-- The payload does not have `LEN` bytes (R75 step 4). -/
  | payloadLengthNotLen
deriving DecidableEq, Repr

/-- Decoding: the procedure of R75, step by step. -/
def decode (cw : Desc) (p : Payload) : Except Illegal Instr :=
  if Desc.rsv cw ≠ 0 then .error .reservedNotZero
  else
    match opOf? (Desc.opc cw) with
    | none => .error .unknownOpcode
    | some op =>
      if op.usesSeed = false ∧ Desc.seed cw ≠ 0 then .error .unusedSeedNotZero
      else if op.usesLen = false ∧ Desc.len cw ≠ 0 then .error .unusedLenNotZero
      else if p.length ≠ (Desc.len cw).toNat then .error .payloadLengthNotLen
      else .ok (op.instr (Desc.seed cw) p)

/-! ### Encoding -/

/-- The descriptor and payload of a command, from the tables of R71 to R74: the unused fields are zero and `LEN` is the
number of payload bytes. -/
def encode : Instr → Desc × Payload
  | .xinit seed => (mkDesc 0x01 seed 0, [])
  | .xreset => (mkDesc 0x02 0 0, [])
  | .xwrite p => (mkDesc 0x03 0 (BitVec.ofNat 64 p.length), p)
  | .xdigest => (mkDesc 0x04 0 0, [])
  | .xsum seed p => (mkDesc 0x05 seed (BitVec.ofNat 64 p.length), p)
  | .xinfo => (mkDesc 0x06 0 0, [])

/-! ### The table's numbering of a command's bits

DESIGN CHOICE (log 8): the spec serialises nothing (R83). The host numbers an instruction's bits as one number; here the
descriptor is bits 127..0 of it, and byte `j` of the payload is bits `128 + 8j` and up. -/

/-- The descriptor in the first `nbits` bits of `w`, the bits above them zero. -/
def tableDesc (nbits w : Nat) : Desc := BitVec.ofNat 128 (w % 2 ^ nbits)

/-- `n` payload bytes read from `w`, the first from its least significant bits. -/
def bytesOfNat : Nat → Nat → Payload
  | 0, _ => []
  | n + 1, w => BitVec.ofNat 8 w :: bytesOfNat n (w / 256)

/-- The payload of such a command: `LEN` bytes, each zero unless `nbits` reaches past the descriptor. -/
def tablePayload (nbits w : Nat) : Payload :=
  bytesOfNat (Desc.len (tableDesc nbits w)).toNat (w % 2 ^ nbits / 2 ^ 128)

/-- What the decoder reads from an instruction numbered as spec/opcode_table.json numbers it. -/
def decodeTableWord (nbits w : Nat) : Option Instr :=
  match decode (tableDesc nbits w) (tablePayload nbits w) with
  | .ok i => some i
  | .error _ => none

end Sys2Proof
end

