-- ==== Sys2Proof/Config.lean ====
section
/-!
DEFINITION. What is fixed for the block or for one instance of it: the parameters of spec/00_scope.md R7 and the default
of the one open parameter, `MAX_WRITE_BYTES` (R8). The spec leaves no value undefined after a command that goes on, so
there is no free value here.
-/

namespace Sys2Proof.Config

/-- `BLOCK_BYTES`: bytes folded per block (R7). -/
def blockBytes : Nat := 16

/-- `DIGEST_BYTES` (R7). -/
def digestBytes : Nat := 4

/-- `DEFAULT_SEED`: the seed of hardware reset and of `new_hasher()` (R7, R190). -/
def defaultSeed : Word := 0

/-- The default of `MAX_WRITE_BYTES`, `2^30` (R8). PRESUMED by the spec itself (G2): that 1 GiB is `2^30` bytes (log 2).
The parameter is the field `maxWriteBytes` of `State`; this is only its value in `State.reset`. -/
def defaultMaxWriteBytes : Len := 0x40000000

end Sys2Proof.Config
end

