-- ==== Sys2Proof/Machine/Operands.lean ====
section
/-!
DEFINITION. The byte-indexed spaces (spec/20_memory.md): reading bytes and little-endian words of a payload or of the
buffer (R53), writing bytes to the buffer (R55), and slices of byte sequences (spec/00_scope.md R11).
-/

namespace Sys2Proof.Machine

/-- `S[a..b)` (R11). -/
def slice (S : Payload) (a b : Nat) : Payload := (S.drop a).take (b - a)

/-- `S[off]`. DESIGN CHOICE (log 15): a read past the end gives 0; the rules never read there ("no read is ever out of
range", R53). -/
def byteAt (S : Payload) (off : Nat) : Byte := S.getD off 0

/-- `MemRead(S, off, 1)`: the byte itself; its uses zero-extend it (R53). -/
def memRead1 (S : Payload) (off : Nat) : Byte := byteAt S off

/-- `MemRead(S, off, 4)`: four bytes as one little-endian word, `S[off]` in bits `[7:0]` and `S[off+3]` in bits
`[31:24]` (R52, R53). No alignment is asked of `off` (R54). -/
def memRead4 (S : Payload) (off : Nat) : Word :=
  byteAt S (off + 3) ++ byteAt S (off + 2) ++ byteAt S (off + 1) ++ byteAt S off

/-- `MemWrite(BUF, off, n, T)` with `n = |T|`: `BUF[off + j] <- T[j]`, the other cells kept (R55). The rules use it with
`off = BUF_CNT` only, where it appends. -/
def memWrite (buf : Payload) (off : Nat) (T : Payload) : Payload :=
  buf.take off ++ T ++ buf.drop (off + T.length)

end Sys2Proof.Machine
end

