-- ==== Sys2Proof/Machine/Mixing.lean ====
section
/-!
DEFINITION. The mixing primitives (spec/40_mixing_primitives.md R100 to R112) and the two pure functions made of them
that the commands share: the initial lanes of `InitState` (spec/41_init_reset.md R122) and `Finalize`
(spec/43_digest.md R140). `+32`, `-32` and `*32` are the operations of `BitVec 32` (R101, R102), `>>` is its logical
right shift and `^` its exclusive or (R104).
-/

namespace Sys2Proof.Machine

/-! ### Constants (R100) -/

def prime1 : Word := 0x9E3779B1
def prime2 : Word := 0x85EBCA77
def prime3 : Word := 0xC2B2AE3D
def prime4 : Word := 0x27D4EB2F
def prime5 : Word := 0x165667B1

/-! ### The primitives -/

/-- `rotl32(x, r) = ((x << r) mod 2^32) or (x >> (32 - r))`, for a constant `r` with `0 < r < 32` (R103). -/
def rotl32 (x : Word) (r : Nat) : Word := (x <<< r) ||| (x >>> (32 - r))

/-- `round(acc, input)`, the per-lane update (R105). -/
def laneRound (acc input : Word) : Word := rotl32 (acc + input * prime2) 13 * prime1

/-- `x ^ (x >> r)`, the step of `avalanche` (R104, R106). -/
def xorShift (x : Word) (r : Nat) : Word := x ^^^ (x >>> r)

/-- The finalization mixer (R106). -/
def avalanche (x : Word) : Word :=
  xorShift (xorShift (xorShift x 15 * prime2) 13 * prime3) 16

/-- The convergence of the four lanes (R107). -/
def merge (L : Lanes) : Word := rotl32 L.l0 1 + rotl32 L.l1 7 + rotl32 L.l2 12 + rotl32 L.l3 18

/-- One 4-byte step of the tail (R108). -/
def tailword (acc w : Word) : Word := rotl32 (acc + w * prime3) 17 * prime4

/-- One 1-byte step of the tail: the byte is zero-extended (R109, R53). -/
def tailbyte (acc : Word) (b : Byte) : Word := rotl32 (acc + b.zeroExtend 32 * prime5) 11 * prime1

/-- The four-lane block update: lane `i` takes the word at `B[4i]` (R110). -/
def fold (L : Lanes) (B : Payload) : Lanes :=
  { l0 := laneRound L.l0 (memRead4 B 0)
    l1 := laneRound L.l1 (memRead4 B 4)
    l2 := laneRound L.l2 (memRead4 B 8)
    l3 := laneRound L.l3 (memRead4 B 12) }

/-- `m` blocks folded one after the other from the front of `S` (the loop of R130 step 3). -/
def foldBlocks : Nat → Lanes → Payload → Lanes
  | 0, L, _ => L
  | m + 1, L, S => foldBlocks m (fold L (S.take 16)) (S.drop 16)

/-! ### The initial lanes -/

/-- The lanes of `InitState(seed)` (R122). The sums stand with the constant first, as R101 allows: Lean's kernel unfolds a
sum from its right, and a large constant there would be unfolded to no end. -/
def initLanes (seed : Word) : Lanes :=
  { l0 := prime1 + prime2 + seed
    l1 := prime2 + seed
    l2 := seed
    l3 := seed - prime1 }

/-! ### Finalization (R140) -/

/-- `k` word steps of the tail from offset `o` (the first loop of R140 step 3). -/
def tailWords : Nat → Word → Payload → Nat → Word
  | 0, acc, _, _ => acc
  | k + 1, acc, T, o => tailWords k (tailword acc (memRead4 T o)) T (o + 4)

/-- `k` byte steps of the tail from offset `o` (the second loop of R140 step 3). -/
def tailBytes : Nat → Word → Payload → Nat → Word
  | 0, acc, _, _ => acc
  | k + 1, acc, T, o => tailBytes k (tailbyte acc (memRead1 T o)) T (o + 1)

/-- Step 1 of R140: the merged lanes if at least 16 bytes were written, compared on the full 64-bit count, else the
seed and `PRIME5` (the constant first, as in `initLanes`). -/
def finalizeStart (seed : Word) (total : Len) (L : Lanes) : Word :=
  if 16 ≤ total.toNat then merge L else prime5 + seed

/-- Step 3 of R140: `floor(|T| / 4)` words, then `|T| mod 4` bytes. -/
def mixTail (acc : Word) (T : Payload) : Word :=
  tailBytes (T.length % 4) (tailWords (T.length / 4) acc T 0) T (4 * (T.length / 4))

/-- `Finalize(seed, total, L, T)` (R140); step 2 adds `total[31:0]`. -/
def finalize (seed : Word) (total : Len) (L : Lanes) (T : Payload) : Word :=
  avalanche (mixTail (finalizeStart seed total L + total.extractLsb' 0 32) T)

end Sys2Proof.Machine
end

