-- ==== Sys2Proof/Machine/State.lean ====
section
/-!
DEFINITION. The state: the one HashState of the block (spec/10_state.md R20, R37), and beside it what the fixed step
type has no other place for: the platform parameter `MAX_WRITE_BYTES` (R8, R192), the host's coming moves (R70, R204)
and the responses produced so far (R77, R205). Plain data.
-/

namespace Sys2Proof.Machine

/-- `PHASE` (R26), with `DIGEST` inside it, so that `DIGEST` holds a value exactly while `PHASE = Finalized` (R27, R37). -/
inductive Phase where
  /-- `Streaming`: writes are accepted; `DIGEST` holds no value. -/
  | streaming
  /-- `Finalized`, with the cached `DIGEST`. -/
  | finalized (digest : Word)
deriving DecidableEq, Repr

/-- The HashState: every register of R20. `BUF_CNT` is `buf.length` (R37); the cells at and above it are not state
(R24). -/
@[ext]
structure HashState where
  /-- `SEED` (R21). -/
  seed : Word
  /-- `LANE[0]` .. `LANE[3]` (R22). -/
  lane : Lanes
  /-- `TOTAL_LEN` (R23). -/
  totalLen : Len
  /-- `BUF[0 .. BUF_CNT)`, the oldest pending byte first (R24, R25). -/
  buf : Payload
  /-- `PHASE` and `DIGEST` (R26, R27). -/
  phase : Phase
deriving DecidableEq, Repr

/-- One move of the host (R204). -/
inductive HostEvent where
  /-- A command `(CW, P)` (R70). -/
  | command (cw : Desc) (payload : Payload)
  /-- A hardware reset between commands (R191). -/
  | reset
  /-- A hardware reset that arrives while the command `(CW, P)` is executing and abandons it (R191). -/
  | resetDuring (cw : Desc) (payload : Payload)
deriving DecidableEq, Repr

/-- The machine: the HashState, and the model's own three fields. -/
@[ext]
structure State where
  /-- The architectural state (R20). -/
  hash : HashState
  /-- `MAX_WRITE_BYTES`: a parameter of the instance, not a register (R8, R192). DESIGN CHOICE (log 2): a field, so that a
  statement about every state is a statement about every cap. No step writes it. -/
  maxWriteBytes : Len
  /-- The host's moves not yet taken, the next one first. DESIGN CHOICE (log 1). -/
  inbox : List HostEvent
  /-- The response words produced, the oldest first (R84, R205). DESIGN CHOICE (log 1). -/
  responses : List Desc
deriving DecidableEq, Repr

/-- The status of a response (R78). -/
inductive Status where
  | ok | invalidState | lengthLimitExceeded | illegalCommand
deriving DecidableEq, Repr

/-- The three error kinds (R160). -/
inductive ErrorKind where
  /-- Raised by `XWRITE` in phase `Finalized` (R161). -/
  | invalidState
  /-- Raised by `XWRITE` and `XSUM` when `LEN > MAX_WRITE_BYTES` (R162). -/
  | lengthLimitExceeded
  /-- Raised by a descriptor or payload that decodes to no command (R163). -/
  | illegalCommand
deriving DecidableEq, Repr

/-- Reasons to stop with a fault. There are none: an error is a response and the block takes the next command (R165),
and no command hangs (R203). Log 14. -/
inductive Fault where
deriving DecidableEq, Repr

/-- Reasons to refuse. -/
inductive Refusal where
  /-- An instruction that has no meaning in the model yet, by its mnemonic; raised by `exec` alone, where an arm has no
  meaning; no arm has one left. Safe: nothing can be proved of such an instruction's effect. -/
  | notModelled (mnemonic : String)
  /-- An `XWRITE` that passed its checks with `TOTAL_LEN + LEN >= 2^64`; raised by `execXwrite`. The spec gives it no
  meaning and says "a model must refuse it" (R130, R13; log 7). Safe. -/
  | totalLenOverflow
deriving DecidableEq, Repr

/-- The machine after hardware reset: every register as R33 and R190 state it, the default cap (R8), no move of the host
waiting and no response produced. -/
def State.reset : State :=
  { hash :=
      { seed := Config.defaultSeed
        lane := initLanes Config.defaultSeed
        totalLen := 0
        buf := []
        phase := .streaming }
    maxWriteBytes := Config.defaultMaxWriteBytes
    inbox := []
    responses := [] }

end Sys2Proof.Machine
end

