-- ==== Sys2Proof/Machine/Flags.lean ====
section
/-!
DEFINITION. The one flag, `PHASE` (spec/10_state.md R26), and the status codes and response words
(spec/30_encoding.md R77, R78). The block has no arithmetic flags (spec/40_mixing_primitives.md R101, R102).
-/

namespace Sys2Proof.Machine

/-- `PHASE = Streaming`, the plain tag comparison of R161. -/
def Phase.isStreaming : Phase → Bool
  | .streaming => true
  | .finalized _ => false

/-- The one-bit coding of `PHASE` (R26): `0 = Streaming`, `1 = Finalized`. No command exposes it. -/
def Phase.bit : Phase → BitVec 1
  | .streaming => 0
  | .finalized _ => 1

/-- `DIGEST`: a value exactly while `PHASE = Finalized` (R27). -/
def Phase.digest? : Phase → Option Word
  | .streaming => none
  | .finalized d => some d

/-- The status codes of R78. -/
def Status.code : Status → BitVec 8
  | .ok => 0x00
  | .invalidState => 0x01
  | .lengthLimitExceeded => 0x02
  | .illegalCommand => 0x03

/-- The status that reports an error (R160). -/
def ErrorKind.status : ErrorKind → Status
  | .invalidState => .invalidState
  | .lengthLimitExceeded => .lengthLimitExceeded
  | .illegalCommand => .illegalCommand

/-- The response word (R77): `STATUS` in bits 127..120, 24 zero bits, `VALUE`, `COUNT`. -/
def responseWord (st : Status) (value : Word) (count : Len) : Desc := st.code ++ 0#24 ++ value ++ count

/-- `RW[127:120]`. -/
def rwStatus (rw : Desc) : BitVec 8 := rw.extractLsb' 120 8

/-- `RW[119:96]`. -/
def rwZero (rw : Desc) : BitVec 24 := rw.extractLsb' 96 24

/-- `RW[95:64]`. -/
def rwValue (rw : Desc) : Word := rw.extractLsb' 64 32

/-- `RW[63:0]`. -/
def rwCount (rw : Desc) : Len := rw.extractLsb' 0 64

/-- `VALUE` of `XINFO`: digest size in bits 7..0, block size in bits 15..8, zero above (R152). -/
def infoValue : Word := 0#16 ++ BitVec.ofNat 8 Config.blockBytes ++ BitVec.ofNat 8 Config.digestBytes

end Sys2Proof.Machine
end

