-- ==== Sys2Proof/Machine/Ops.lean ====
section
/-!
DEFINITION. The shared operations: the response (spec/30_encoding.md R84), raising an error and, beside it, why there is
no return (spec/60_exceptions.md R165, R166), hardware reset (spec/70_reset_and_hazards.md R190, R191), `InitState`
(spec/41_init_reset.md R122), the body of `XWRITE` (spec/42_write.md R130) and taking the host's next move.
-/

namespace Sys2Proof.Machine

/-! ### Updates of the state -/

/-- The HashState replaced, the rest kept. -/
def State.setHash (s : State) (h : HashState) : State := { s with hash := h }

/-- The host's moves replaced, the rest kept. -/
def State.setInbox (s : State) (evs : List HostEvent) : State := { s with inbox := evs }

/-- One response produced, after every earlier one (R84). -/
def State.respond (s : State) (st : Status) (value : Word) (count : Len) : State :=
  { s with responses := s.responses ++ [responseWord st value count] }

/-- `PHASE` (and with it `DIGEST`) replaced, the other registers kept. -/
def HashState.setPhase (h : HashState) (p : Phase) : HashState := { h with phase := p }

/-- `BUF_CNT` (R25, R37). -/
def HashState.bufCnt (h : HashState) : Nat := h.buf.length

/-! ### Errors -/

/-- Raising an error, the one form for all three kinds: the command ends, its response carries the error's code with
`VALUE = 0` and `COUNT = 0`, and no register changes (R165, R79). Nothing is saved and control goes nowhere, so there is
nothing to return from: the next command is simply taken (R165, R166). -/
def raise (e : ErrorKind) (s : State) : Host.Outcome State Fault Refusal := .next (s.respond e.status 0 0)

/-! ### Initialisation and reset -/

/-- `InitState(seed)`: a whole HashState (R122). -/
def initState (seed : Word) : HashState :=
  { seed := seed, lane := initLanes seed, totalLen := 0, buf := [], phase := .streaming }

/-- Hardware reset from any state: the registers become `InitState(0)` (R190) with no trace of the state before (R191);
the cap is a parameter and stays (R192); no response is produced. -/
def hardwareReset (s : State) : State := s.setHash (initState Config.defaultSeed)

/-! ### The body of `XWRITE` (R130), after its checks -/

/-- Step 2: complete the pending block, if there is one. Answers the HashState and the input cursor. -/
def completePending (h : HashState) (P : Payload) : HashState × Nat :=
  if 0 < h.bufCnt then
    let k := min (16 - h.bufCnt) P.length
    let filled := memWrite h.buf h.bufCnt (slice P 0 k)
    if h.bufCnt + k = 16 then ({ h with lane := fold h.lane (slice filled 0 16), buf := [] }, k)
    else ({ h with buf := filled }, k)
  else (h, 0)

/-- Step 3: whole blocks straight from the payload, from the cursor on. Answers the HashState and the cursor after. -/
def foldPayload (h : HashState) (P : Payload) (cur : Nat) : HashState × Nat :=
  let m := (P.length - cur) / 16
  ({ h with lane := foldBlocks m h.lane (P.drop cur) }, cur + 16 * m)

/-- Step 4: the rest is appended to the buffer (R130, "Step 4 appends"). -/
def keepRest (h : HashState) (P : Payload) (cur : Nat) : HashState :=
  { h with buf := memWrite h.buf h.bufCnt (P.drop cur) }

/-- Step 1: `TOTAL_LEN <- TOTAL_LEN + n`. -/
def countBytes (h : HashState) (P : Payload) : HashState :=
  { h with totalLen := h.totalLen + BitVec.ofNat 64 P.length }

/-- The four steps of `XWRITE` on a HashState (R130); `XSUM` runs them on its temporary one (R150). -/
def absorb (h : HashState) (P : Payload) : HashState :=
  let a := completePending (countBytes h P) P
  let b := foldPayload a.1 P a.2
  keepRest b.1 P b.2

/-- `Finalize(SEED, TOTAL_LEN, LANE, BUF[0 .. BUF_CNT))` of a HashState (R140, R141). -/
def digestOf (h : HashState) : Word := finalize h.seed h.totalLen h.lane h.buf

/-! ### The host's next move (R31, R204) -/

/-- The next move and the state with it taken, if there is one. -/
def takeEvent (s : State) : Option (HostEvent × State) :=
  match s.inbox with
  | [] => none
  | e :: rest => some (e, s.setInbox rest)

/-- The state with a move put in front of the others. -/
def State.present (s : State) (e : HostEvent) : State := s.setInbox (e :: s.inbox)

end Sys2Proof.Machine
end

