-- ==== Sys2Proof/Machine/Digest.lean ====
section
/-!
DEFINITION. Finalization (spec/43_digest.md): `XDIGEST`.
-/

namespace Sys2Proof.Machine

/-- `XDIGEST` (R141): the cached digest, or the digest computed, cached, and the phase set; the other registers keep
their values. -/
def execXdigest (s : State) : Host.Outcome State Fault Refusal :=
  match s.hash.phase with
  | .finalized d => .next (s.respond .ok d 0)
  | .streaming =>
    .next ((s.setHash (s.hash.setPhase (.finalized (digestOf s.hash)))).respond .ok (digestOf s.hash) 0)

end Sys2Proof.Machine
end

