-- ==== Sys2Proof/Machine/Init.lean ====
section
/-!
DEFINITION. The initialisation commands (spec/41_init_reset.md): `XINIT` and `XRESET`.
-/

namespace Sys2Proof.Machine

/-- `XINIT seed` (R120): `InitState(seed)`, response OK; accepted in every phase. -/
def execXinit (seed : Word) (s : State) : Host.Outcome State Fault Refusal :=
  .next ((s.setHash (initState seed)).respond .ok 0 0)

/-- `XRESET` (R121): `InitState(SEED)`, response OK; accepted in every phase. -/
def execXreset (s : State) : Host.Outcome State Fault Refusal :=
  .next ((s.setHash (initState s.hash.seed)).respond .ok 0 0)

end Sys2Proof.Machine
end

