-- ==== Sys2Proof/Machine/OneShot.lean ====
section
/-!
DEFINITION. The one-shot and constants commands (spec/44_oneshot_info.md): `XSUM` and `XINFO`.
-/

namespace Sys2Proof.Machine

/-- `XSUM seed, P` (R150): the digest of `P` on a temporary HashState; the core's own is neither read nor written. -/
def execXsum (seed : Word) (P : Payload) (s : State) : Host.Outcome State Fault Refusal :=
  if s.maxWriteBytes.toNat < P.length then raise .lengthLimitExceeded s
  else .next (s.respond .ok (digestOf (absorb (initState seed) P)) 0)

/-- `XINFO` (R152): the digest and block sizes in `VALUE`, the cap in `COUNT`. -/
def execXinfo (s : State) : Host.Outcome State Fault Refusal :=
  .next (s.respond .ok infoValue s.maxWriteBytes)

end Sys2Proof.Machine
end

