-- ==== Sys2Proof/Machine/Write.lean ====
section
/-!
DEFINITION. The streaming command (spec/42_write.md): `XWRITE`.
-/

namespace Sys2Proof.Machine

/-- `XWRITE P` (R130): the checks in the order of R164, nothing written unless all pass; then the four steps, and
`COUNT = n` (R133). -/
def execXwrite (P : Payload) (s : State) : Host.Outcome State Fault Refusal :=
  if s.hash.phase.isStreaming = false then raise .invalidState s
  else if s.maxWriteBytes.toNat < P.length then raise .lengthLimitExceeded s
  else if 2 ^ 64 ≤ s.hash.totalLen.toNat + P.length then .refused .totalLenOverflow
  else .next ((s.setHash (absorb s.hash P)).respond .ok 0 (BitVec.ofNat 64 P.length))

end Sys2Proof.Machine
end

