-- ==== Sys2Proof/Machine/Dispatch.lean ====
section
/-!
DEFINITION. The dispatch of the six commands to their meanings (spec/30_encoding.md R72).
-/

namespace Sys2Proof.Machine

def exec (i : Instr) (s : State) : Host.Outcome State Fault Refusal :=
  match i with
  | .xinit seed => Sys2Proof.Machine.execXinit seed s
  | .xreset => Sys2Proof.Machine.execXreset s
  | .xwrite payload => Sys2Proof.Machine.execXwrite payload s
  | .xdigest => Sys2Proof.Machine.execXdigest s
  | .xsum seed payload => Sys2Proof.Machine.execXsum seed payload s
  | .xinfo => Sys2Proof.Machine.execXinfo s

end Sys2Proof.Machine
end

