-- ==== Sys2Proof/Machine/Step.lean ====
section
/-!
DEFINITION. One step: the host's next move, taken to completion (spec/10_state.md R31, spec/20_memory.md R57, R59).
-/

namespace Sys2Proof.Machine

/-- One step. With no move waiting the core is idle and all state survives (R173; DESIGN CHOICE, log 13: a step of its
own). A reset puts the registers at `InitState(0)` and produces no response, whether it falls between commands or
abandons one (R191). A command is decoded without reading state (R75); an illegal one answers `IllegalCommand` (R76,
R163), a legal one runs. -/
def step (s : State) : Host.Outcome State Fault Refusal :=
  match takeEvent s with
  | none => .next s
  | some (.reset, s') => .next (hardwareReset s')
  | some (.resetDuring _ _, s') => .next (hardwareReset s')
  | some (.command cw P, s') =>
    match decode cw P with
    | .ok i => exec i s'
    | .error _ => raise .illegalCommand s'

/-- `s` with the command that `nbits` and `w` number presented as the host's very next move (log 8, log 12). -/
def State.withFetchWord (s : State) (nbits w : Nat) : State :=
  s.present (.command (tableDesc nbits w) (tablePayload nbits w))

end Sys2Proof.Machine
end

