-- ==== Sys2Proof/Machine/Assembler.lean ====
section
/-!
DEFINITION. The spec's notation for commands and responses (spec/30_encoding.md R80) and its pseudo-instructions (R81).
Nothing of the machine depends on this file. A line of text is a list of characters.
-/

namespace Sys2Proof.Machine

/-! ### Pseudo-instructions (R81) -/

/-- The source's operation names, with their optional seeds. -/
inductive Pseudo where
  | newHasher (seed : Option Word)
  | reset (seed : Option Word)
  | write (bytes : Payload)
  | digest32
  | sum32
  | checksum32 (bytes : Payload) (seed : Option Word)
deriving DecidableEq, Repr

/-- The expansion column of R81. `reset` without a seed keeps the previous one; the others default to seed 0. -/
def Pseudo.expand : Pseudo → Instr
  | .newHasher none => .xinit Config.defaultSeed
  | .newHasher (some s) => .xinit s
  | .reset (some s) => .xinit s
  | .reset none => .xreset
  | .write b => .xwrite b
  | .digest32 => .xdigest
  | .sum32 => .xdigest
  | .checksum32 b none => .xsum Config.defaultSeed b
  | .checksum32 b (some s) => .xsum s b

/-! ### Writing commands and responses (R80) -/

/-- The digits of the literals of R80, each at the index that is its value. -/
def digitChars : List Char := "0123456789ABCDEF".toList

/-- A hexadecimal digit, upper case as the spec writes them. -/
def hexDigit (n : Nat) : Char := digitChars.getD n '0'

/-- The low `k` hexadecimal digits of a number, the most significant first. -/
def hexDigits : Nat → Nat → List Char
  | 0, _ => []
  | k + 1, n => hexDigits k (n / 16) ++ [hexDigit (n % 16)]

/-- A 32-bit literal, `0x` and eight digits. -/
def showWord (w : Word) : List Char := '0' :: 'x' :: hexDigits 8 w.toNat

/-- The items of a byte list up to the closing bracket: two digits each, one space between. -/
def showItems : Payload → List Char
  | [] => [']']
  | [b] => hexDigits 2 b.toNat ++ [']']
  | b :: rest => hexDigits 2 b.toNat ++ ' ' :: showItems rest

/-- A payload as a byte list in brackets. -/
def showPayload (p : Payload) : List Char := '[' :: showItems p

/-- The mnemonic of an opcode (R72), as characters. -/
def mnemonicOf : Op → List Char
  | .xinit => ['X', 'I', 'N', 'I', 'T']
  | .xreset => ['X', 'R', 'E', 'S', 'E', 'T']
  | .xwrite => ['X', 'W', 'R', 'I', 'T', 'E']
  | .xdigest => ['X', 'D', 'I', 'G', 'E', 'S', 'T']
  | .xsum => ['X', 'S', 'U', 'M']
  | .xinfo => ['X', 'I', 'N', 'F', 'O']

/-- A command as a line. -/
def showInstr : Instr → List Char
  | .xinit seed => mnemonicOf .xinit ++ ' ' :: showWord seed
  | .xreset => mnemonicOf .xreset
  | .xwrite p => mnemonicOf .xwrite ++ ' ' :: showPayload p
  | .xdigest => mnemonicOf .xdigest
  | .xsum seed p => mnemonicOf .xsum ++ ' ' :: (showWord seed ++ ',' :: ' ' :: showPayload p)
  | .xinfo => mnemonicOf .xinfo

/-- The name of a status code (R78); a code outside the table has none. -/
def statusName (code : BitVec 8) : Option String :=
  if code = Status.ok.code then some "OK"
  else if code = Status.invalidState.code then some "InvalidState"
  else if code = Status.lengthLimitExceeded.code then some "LengthLimitExceeded"
  else if code = Status.illegalCommand.code then some "IllegalCommand"
  else none

/-- A response as a line, its zero fields omitted. -/
def showResponse (rw : Desc) : Option (List Char) :=
  (statusName (rwStatus rw)).map fun name =>
    "-> ".toList ++ name.toList
      ++ (if rwValue rw = 0 then [] else ", VALUE=".toList ++ showWord (rwValue rw))
      ++ (if rwCount rw = 0 then [] else ", COUNT=".toList ++ Nat.toDigits 10 (rwCount rw).toNat)

/-! ### Reading commands (R80)

DESIGN CHOICE (log 16): digits of either case are read, one or more spaces stand after a mnemonic, any number after the
comma, and none anywhere else. -/

/-- The value of a digit: where its upper-case form stands among the digits. -/
def digitVal? (c : Char) : Option Nat := digitChars.idxOf? c.toUpper

/-- Digits of a base below 17 read from the left onto a number. -/
def readDigits (base : Nat) : Nat → List Char → Option Nat
  | acc, [] => some acc
  | acc, c :: rest =>
    match digitVal? c with
    | some v => if v < base then readDigits base (base * acc + v) rest else none
    | none => none

/-- At least one digit, and a value below `2^32`. -/
def readWordDigits (base : Nat) (cs : List Char) : Option Word :=
  match cs with
  | [] => none
  | c :: rest =>
    match readDigits base 0 (c :: rest) with
    | some n => if n < 2 ^ 32 then some (BitVec.ofNat 32 n) else none
    | none => none

/-- A seed: a 32-bit literal, decimal or `0x` hexadecimal. -/
def readSeed (cs : List Char) : Option Word :=
  match cs with
  | '0' :: 'x' :: rest => readWordDigits 16 rest
  | _ => readWordDigits 10 cs

/-- Two hexadecimal digits as a byte. -/
def readByte (h l : Char) : Option Byte :=
  match digitVal? h, digitVal? l with
  | some a, some b => some (BitVec.ofNat 8 (16 * a + b))
  | _, _ => none

/-- The items of a byte list up to the closing bracket, at least one. -/
def readItems : List Char → Option Payload
  | h :: l :: c :: rest =>
    match readByte h l with
    | none => none
    | some b =>
      if c = ']' then (if rest = [] then some [b] else none)
      else if c = ' ' then (readItems rest).map (b :: ·)
      else none
  | _ => none

/-- The characters of a string up to its closing quote, each an ASCII character, as bytes. -/
def readString : List Char → Option Payload
  | [] => none
  | c :: rest =>
    if c = '"' then (if rest = [] then some [] else none)
    else if c.toNat < 128 then (readString rest).map (BitVec.ofNat 8 c.toNat :: ·)
    else none

/-- A payload: a byte list in brackets or an ASCII string in double quotes. -/
def readPayload (cs : List Char) : Option Payload :=
  match cs with
  | ['[', ']'] => some []
  | '[' :: rest => readItems rest
  | '"' :: rest => readString rest
  | _ => none

/-- Leading spaces dropped. -/
def dropSpaces : List Char → List Char
  | [] => []
  | c :: rest => if c = ' ' then dropSpaces rest else c :: rest

/-- The text up to the first occurrence of a character, and the text after it. -/
def cutAt (sep : Char) : List Char → Option (List Char × List Char)
  | [] => none
  | c :: rest =>
    if c = sep then some ([], rest)
    else (cutAt sep rest).map fun r => (c :: r.1, r.2)

/-- A line as a command. `LEN` is never written: it is the number of payload bytes. -/
def readInstr (cs : List Char) : Option Instr :=
  match cutAt ' ' cs with
  | none =>
    if cs = mnemonicOf .xreset then some .xreset
    else if cs = mnemonicOf .xdigest then some .xdigest
    else if cs = mnemonicOf .xinfo then some .xinfo
    else none
  | some (m, rest) =>
    if m = mnemonicOf .xinit then (readSeed (dropSpaces rest)).map .xinit
    else if m = mnemonicOf .xwrite then (readPayload (dropSpaces rest)).map .xwrite
    else if m = mnemonicOf .xsum then
      match cutAt ',' (dropSpaces rest) with
      | none => none
      | some (sd, pl) =>
        match readSeed sd, readPayload (dropSpaces pl) with
        | some seed, some p => some (.xsum seed p)
        | _, _ => none
    else none

end Sys2Proof.Machine
end

