-- ==== Sys2Proof/Safety.lean ====
section
/-!
DEFINITION. The terms the claims use: closed forms of what the commands compute (spec/42_write.md R131, spec/43_digest.md
R143), the invariants of spec/10_state.md R28, and runs of several commands (spec/70_reset_and_hazards.md R205).
-/

namespace Sys2Proof.Machine

/-! ### Closed forms -/

/-- `m` folds of the blocks `S[0 .. 16)`, `S[16 .. 32)`, ... in order (R131). -/
def lanesOfBlocks (m : Nat) (L : Lanes) (S : Payload) : Lanes :=
  (List.range m).foldl (fun acc j => fold acc (slice S (16 * j) (16 * j + 16))) L

/-- The lanes after every whole block of `S`: `floor(|S| / 16)` folds (R131). -/
def lanesAfter (L : Lanes) (S : Payload) : Lanes := lanesOfBlocks (S.length / 16) L S

/-- `S[16 * floor(|S| / 16) .. |S|)` (R131). -/
def tailOf (S : Payload) : Payload := slice S (16 * (S.length / 16)) S.length

/-- The HashState of a session with a seed into which `A` has been written, before any digest (R131). -/
def sessionState (seed : Word) (A : Payload) : HashState :=
  { seed := seed
    lane := lanesAfter (initLanes seed) A
    totalLen := BitVec.ofNat 64 A.length
    buf := tailOf A
    phase := .streaming }

/-- `XXH32(A, s)` (R143). -/
def xxh32 (A : Payload) (seed : Word) : Word :=
  finalize seed (BitVec.ofNat 64 A.length) (lanesAfter (initLanes seed) A) (tailOf A)

/-- `rotl32` on naturals, as R10 writes it. -/
def rotNat (a r : Nat) : Nat := a * 2 ^ r % 2 ^ 32 + a / 2 ^ (32 - r)

/-! ### Invariants -/

/-- I-1, I-3, I-6 and I-7 of R28, for one HashState. -/
def HashState.wf (h : HashState) : Bool :=
  decide (h.buf.length < 16)
    && decide (h.buf.length = h.totalLen.toNat % 16)
    && (decide (16 ≤ h.totalLen.toNat) || decide (h.lane = initLanes h.seed))
    && (match h.phase with
        | .streaming => true
        | .finalized d => decide (d = finalize h.seed h.totalLen h.lane h.buf))

/-- A response word of R77 with a status of R78. -/
def responseWf (rw : Desc) : Bool := decide (rwZero rw = 0) && decide ((rwStatus rw).toNat ≤ 3)

/-- The invariant of the machine: R28 of the registers, R77 and R78 of every response. -/
def State.wf (s : State) : Bool := s.hash.wf && s.responses.all responseWf

/-- A HashState is that of a session (R131, R143, I-2 and I-4 to I-7 of R28): some byte sequence has been written since
the last initialisation, and the digest, once taken, is that of the sequence. -/
def IsSession (h : HashState) : Prop :=
  ∃ A : Payload, A.length < 2 ^ 64 ∧
    (h = sessionState h.seed A ∨ h = (sessionState h.seed A).setPhase (.finalized (xxh32 A h.seed)))

/-! ### Commands and runs -/

/-- The pair `(CW, P)` has `RSV` zero, these other fields, and a payload of `LEN` bytes (R71, R73, R74). -/
def FieldsAre (cw : Desc) (P : Payload) (opc : BitVec 8) (seed : Word) (payload : Payload) : Prop :=
  Desc.opc cw = opc ∧ Desc.rsv cw = 0 ∧ Desc.seed cw = seed ∧ (Desc.len cw).toNat = payload.length ∧ P = payload

/-- Instructions one after the other, stopping at the first refusal (R59, R205). -/
def runInstrs : List Instr → State → Host.Outcome State Fault Refusal
  | [], s => .next s
  | i :: rest, s =>
    match exec i s with
    | .next t => runInstrs rest t
    | .fault r => .fault r
    | .refused r => .refused r

/-- The command a host sends for an instruction (R70). -/
def commandOf (i : Instr) : HostEvent := .command (encode i).1 (encode i).2

/-- An initialisation command (R120, R121). -/
def isInit : Instr → Bool
  | .xinit _ => true
  | .xreset => true
  | .xwrite _ => false
  | .xdigest => false
  | .xsum _ _ => false
  | .xinfo => false

/-- A command outside every session (R153). -/
def isAside : Instr → Bool
  | .xinit _ => false
  | .xreset => false
  | .xwrite _ => false
  | .xdigest => false
  | .xsum _ _ => true
  | .xinfo => true

/-- The one condition under which a command is refused (R13, R130, R170); a run is safe while it never holds. -/
def overflows (i : Instr) (s : State) : Prop :=
  ∃ P, i = .xwrite P ∧ s.hash.phase = .streaming ∧ P.length ≤ s.maxWriteBytes.toNat ∧
    2 ^ 64 ≤ s.hash.totalLen.toNat + P.length

end Sys2Proof.Machine
end

