-- ==== Sys2Proof/Certificates/Slice0/Obligations.lean ====
section
/-!
DEFINITION. The statements. Each docstring names the rules of spec/ it formalises; where a rule is the spec's own decision
(D<n> of spec/92_eei_decisions.md) or a consequence the spec derives, the docstring says so.
-/

open Sys2Proof Sys2Proof.Machine

/-! ### Encoding -/

/-- Twelve descriptors that programs P1 to P4 write out (spec/95_test_vectors.md section 7) decode as they say: P4 step 3; P1
steps 9, 2 and 5; P4 step 7; P3 step 7; P3 steps 10 to 15. The encodings are the spec's decisions D3, D4, D6. -/
def Obligations.SpecDescriptorsDecode : Prop :=
  decode 0x01000000FFFFFFFF0000000000000000 [] = .ok (.xinit 0xFFFFFFFF) ∧
  decode 0x02000000000000000000000000000000 [] = .ok .xreset ∧
  decode 0x03000000000000000000000000000002 [0x74, 0x65] = .ok (.xwrite [0x74, 0x65]) ∧
  decode 0x04000000000000000000000000000000 [] = .ok .xdigest ∧
  decode 0x05000000FFFFFFFF0000000000000021 (List.replicate 33 0xFF) = .ok (.xsum 0xFFFFFFFF (List.replicate 33 0xFF)) ∧
  decode 0x06000000000000000000000000000000 [] = .ok .xinfo ∧
  decode 0x07000000000000000000000000000000 [] = .error .unknownOpcode ∧
  decode 0x04000000000000000000000000000001 [0x00] = .error .unusedLenNotZero ∧
  decode 0x04000000000000050000000000000000 [] = .error .unusedSeedNotZero ∧
  decode 0x03000000000000000000000000000003 [0x61, 0x62] = .error .payloadLengthNotLen ∧
  decode 0x01000001000000000000000000000000 [] = .error .reservedNotZero ∧
  decode 0x00000000000000000000000000000000 [] = .error .unknownOpcode

/-- Decoding an encoded well-formed instruction gives it back, with every seed and every payload (R71 to R75). -/
def Obligations.DecodeEncodeRoundTrip : Prop :=
  ∀ i : Instr, i.wf = true → decode (encode i).1 (encode i).2 = .ok i

/-- Every legal command is the encoding of the one instruction it decodes to (R73, R75): no bit of it is dropped. -/
def Obligations.EncodeDecodeRoundTrip : Prop :=
  ∀ (cw : Desc) (P : Payload) (i : Instr), decode cw P = .ok i → encode i = (cw, P) ∧ i.wf = true

/-- R73: "A descriptor selects the row for which `CW and mask = match`; the rows are disjoint because `OPC` differs". The
procedure of R75 agrees with that table: a legal command selects the row of its own opcode, a selected row with a payload of
`LEN` bytes decodes to its own command, and no descriptor selects two rows (the encodings are the spec's decision D4). -/
def Obligations.DecodeAgreesWithTable : Prop :=
  ∀ (cw : Desc) (P : Payload),
    (∀ i, decode cw P = .ok i →
      P.length = (Desc.len cw).toNat ∧ ∃ row ∈ opcodeTable, cw &&& row.mask = row.matchBits ∧ row.op = i.op) ∧
    (∀ row ∈ opcodeTable, cw &&& row.mask = row.matchBits → P.length = (Desc.len cw).toNat →
      ∃ i, decode cw P = .ok i ∧ i.op = row.op) ∧
    (∀ row ∈ opcodeTable, ∀ row' ∈ opcodeTable,
      cw &&& row.mask = row.matchBits → cw &&& row'.mask = row'.matchBits → row = row')

/-- R163 and R76: which commands are illegal (the spec's decision D6): `RSV` not zero, an `OPC` outside 1 to 6, a
non-zero `SEED` or `LEN` in a command that does not use it, or a payload whose length is not `LEN`. -/
def Obligations.IllegalExactlyWhenMalformed : Prop :=
  ∀ (cw : Desc) (P : Payload),
    (∃ why, decode cw P = .error why) ↔
      (Desc.rsv cw ≠ 0 ∨ ¬ (1 ≤ (Desc.opc cw).toNat ∧ (Desc.opc cw).toNat ≤ 6) ∨
       (Desc.opc cw ≠ 1 ∧ Desc.opc cw ≠ 5 ∧ Desc.seed cw ≠ 0) ∨
       (Desc.opc cw ≠ 3 ∧ Desc.opc cw ≠ 5 ∧ Desc.len cw ≠ 0) ∨
       P.length ≠ (Desc.len cw).toNat)

/-- R80 (the spec's decision D20): reading a command as it is written gives the command, every seed and every payload. -/
def Obligations.AssemblerReadsWhatItWrites : Prop :=
  ∀ i : Instr, readInstr (showInstr i) = some i

/-! ### Stepping -/

/-- A step runs the decoded instruction: with the command `(CW, P)` next in the inbox and decoding to `i`, `step` is
`exec i` on the state with that move taken (R31, R59). The inbox is the model's own field (log 1). -/
def Obligations.StepRunsDecodedInstruction : Prop :=
  ∀ (s : State) (cw : Desc) (P : Payload) (rest : List HostEvent) (i : Instr),
    s.inbox = .command cw P :: rest → decode cw P = .ok i → step s = exec i { s with inbox := rest }

/-- An instruction presented by its own encoding is run by the very next step, on the state it was presented to
(R70 to R75; log 1 for the inbox). -/
def Obligations.PresentedInstructionRuns : Prop :=
  ∀ (s : State) (i : Instr), i.wf = true → step (s.present (commandOf i)) = exec i s

/-- R76 and R163: "An illegal command produces the response `STATUS = IllegalCommand`, `VALUE = 0`, `COUNT = 0` and
changes no state" (the spec's decision D6), for every form of illegal command and in every state. -/
def Obligations.IllegalCommandAnswersAndChangesNothing : Prop :=
  ∀ (s : State) (cw : Desc) (P : Payload) (rest : List HostEvent),
    s.inbox = .command cw P :: rest →
    (Desc.rsv cw ≠ 0 ∨ ¬ (1 ≤ (Desc.opc cw).toNat ∧ (Desc.opc cw).toNat ≤ 6) ∨
     (Desc.opc cw ≠ 1 ∧ Desc.opc cw ≠ 5 ∧ Desc.seed cw ≠ 0) ∨
     (Desc.opc cw ≠ 3 ∧ Desc.opc cw ≠ 5 ∧ Desc.len cw ≠ 0) ∨
     P.length ≠ (Desc.len cw).toNat) →
    step s = .next
      { s with inbox := rest, responses := s.responses ++ [0x03000000000000000000000000000000] }

/-- With no command presented the core is idle and all state survives (R173). That idling is a step of its own is the
model's choice (log 13). -/
def Obligations.IdleStepKeepsState : Prop :=
  ∀ s : State, s.inbox = [] → step s = .next s

/-- Every step answers a next state, but for the one refusal the spec demands (R203, R84, R13, R170). -/
def Obligations.StepAnswersUnlessOverflow : Prop :=
  ∀ s : State,
    (∃ t, step s = .next t) ∨
    (step s = .refused .totalLenOverflow ∧
      ∃ cw P rest i, s.inbox = .command cw P :: rest ∧ decode cw P = .ok i ∧ overflows i { s with inbox := rest })

/-! ### The mixing primitives -/

/-- R103: `rotl32(x, r) = ((x << r) mod 2^32) or (x >> (32 - r))`, with the sum of R10 for the "or", and bit `i` of `x` moves
to bit `(i + r) mod 32`. -/
def Obligations.RotateMovesEachBit : Prop :=
  ∀ (x : Word) (r i : Nat), 0 < r → r < 32 → i < 32 →
    (rotl32 x r).getLsbD ((i + r) % 32) = x.getLsbD i ∧ (rotl32 x r).toNat = rotNat x.toNat r ∧
      (rotl32 x r).toNat = x.toNat * 2 ^ r % 2 ^ 32 ||| x.toNat / 2 ^ (32 - r)

/-- R105 on naturals, with the source's decimal constants: the sum, the rotation of R10 and the product all reduced
modulo `2^32`. -/
def Obligations.RoundInNaturals : Prop :=
  ∀ acc input : Word,
    (laneRound acc input).toNat =
      rotNat ((acc.toNat + input.toNat * 2246822519) % 2 ^ 32) 13 * 2654435761 % 2 ^ 32

/-- R106 on naturals, step by step, with the source's decimal constants. -/
def Obligations.AvalancheInNaturals : Prop :=
  ∀ (x : Word) (a b c d : Nat),
    a = x.toNat ^^^ (x.toNat / 2 ^ 15) → b = a * 2246822519 % 2 ^ 32 → c = b ^^^ (b / 2 ^ 13) →
    d = c * 3266489917 % 2 ^ 32 → (avalanche x).toNat = d ^^^ (d / 2 ^ 16)

/-- R107 on naturals. -/
def Obligations.MergeInNaturals : Prop :=
  ∀ L : Lanes,
    (merge L).toNat =
      (rotNat L.l0.toNat 1 + rotNat L.l1.toNat 7 + rotNat L.l2.toNat 12 + rotNat L.l3.toNat 18) % 2 ^ 32

/-- R108 and R109 on naturals, with the source's decimal constants; the byte is unsigned. -/
def Obligations.TailStepsInNaturals : Prop :=
  (∀ acc w : Word,
    (tailword acc w).toNat = rotNat ((acc.toNat + w.toNat * 3266489917) % 2 ^ 32) 17 * 668265263 % 2 ^ 32) ∧
  (∀ (acc : Word) (b : Byte),
    (tailbyte acc b).toNat = rotNat ((acc.toNat + b.toNat * 374761393) % 2 ^ 32) 11 * 2654435761 % 2 ^ 32)

/-- For a fixed input, `round` is a bijection in `acc` (a consequence that R105 derives). -/
def Obligations.RoundIsBijectiveInAcc : Prop :=
  ∀ input : Word, Function.Bijective fun acc => laneRound acc input

/-- `avalanche` is a bijection (a consequence that R106 derives). -/
def Obligations.AvalancheIsBijective : Prop := Function.Bijective avalanche

/-- R53: a word is four bytes, the first in bits `[7:0]` and the last in bits `[31:24]`, at any index; a byte is
zero-extended. -/
def Obligations.WordReadIsLittleEndian : Prop :=
  ∀ (S : Payload) (off : Nat),
    (∀ h : off + 4 ≤ S.length,
      (memRead4 S off).toNat =
        (S[off]'(by omega)).toNat + 2 ^ 8 * (S[off + 1]'(by omega)).toNat + 2 ^ 16 * (S[off + 2]'(by omega)).toNat
          + 2 ^ 24 * (S[off + 3]'(by omega)).toNat ∧
      (memRead4 S off).extractLsb' 0 8 = S[off]'(by omega) ∧
      (memRead4 S off).extractLsb' 24 8 = S[off + 3]'(by omega)) ∧
    (∀ h : off + 1 ≤ S.length,
      ((memRead1 S off).zeroExtend 32).toNat = (S[off]'(by omega)).toNat ∧ ((memRead1 S off).zeroExtend 32).toNat ≤ 255)

/-- R55: `MemWrite(BUF, off, n, T)` sets the `n = |T|` cells from `off` on to the bytes of `T`, unchanged and in order, and
no other cell. -/
def Obligations.BufferWriteSetsItsCellsOnly : Prop :=
  ∀ (buf T : Payload) (off : Nat), off ≤ buf.length → off + T.length ≤ 16 →
    (∀ j, j < T.length → (memWrite buf off T)[off + j]? = T[j]?) ∧
    (∀ k, k < off ∨ off + T.length ≤ k → (memWrite buf off T)[k]? = buf[k]?)

/-- Lane `i` of a fold is `round` of lane `i` and the word at `B[4i]` (the definition in R110). That lane `i` receives bytes
`B[4i] .. B[4i + 3]` and nothing else, and that no lane reads another lane, is what the spec derives there ("[derived: `round`
reads only its own `acc`]"). -/
def Obligations.FoldLanesAreIndependent : Prop :=
  ∀ (L L' : Lanes) (B B' : Payload) (i : Fin 4),
    (fold L B).get i = laneRound (L.get i) (memRead4 B (4 * i)) ∧
    (L.get i = L'.get i → (∀ j, j < 4 → B[4 * i.val + j]? = B'[4 * i.val + j]?) →
      (fold L B).get i = (fold L' B').get i)

/-! ### Initialisation and reset -/

/-- R120 and R122: `XINIT seed` from every state, and its encoding. Every register is written, the rest of the state is as
before but for one response. -/
def Obligations.XinitResult : Prop :=
  ∀ (seed : Word) (s : State),
    exec (.xinit seed) s = .next
      { s with
        hash :=
          { seed := seed
            lane := ⟨seed + 2654435761 + 2246822519, seed + 2246822519, seed, seed - 2654435761⟩
            totalLen := 0
            buf := []
            phase := .streaming }
        responses := s.responses ++ [responseWord .ok 0 0] } ∧
    (∀ cw P, decode cw P = .ok (.xinit seed) ↔ FieldsAre cw P 0x01 seed [])

/-- R121: `XRESET` from every state, and its encoding; the seed is the one the state has. -/
def Obligations.XresetResult : Prop :=
  ∀ s : State,
    exec .xreset s = .next
      { s with
        hash :=
          { seed := s.hash.seed
            lane := ⟨s.hash.seed + 2654435761 + 2246822519, s.hash.seed + 2246822519, s.hash.seed,
              s.hash.seed - 2654435761⟩
            totalLen := 0
            buf := []
            phase := .streaming }
        responses := s.responses ++ [responseWord .ok 0 0] } ∧
    (∀ cw P, decode cw P = .ok .xreset ↔ FieldsAre cw P 0x02 0 [])

/-- The equivalences that R123 derives: `XINIT x` then `XRESET` leaves the state of `XINIT x`; `XRESET` is
`XINIT SEED`; any commands followed by `XINIT x` leave the registers of `XINIT x` alone. -/
def Obligations.InitialisationForgetsTheSession : Prop :=
  ∀ (x : Word) (s : State),
    (∃ t u, exec (.xinit x) s = .next t ∧ exec .xreset t = .next u ∧ u.hash = t.hash) ∧
    exec .xreset s = exec (.xinit s.hash.seed) s ∧
    (∀ (is : List Instr) (t : State), runInstrs is s = .next t →
      ∃ u v, exec (.xinit x) t = .next u ∧ exec (.xinit x) s = .next v ∧ u.hash = v.hash)

/-- R33 and R190 (the spec's decision D13): every register after hardware reset, and that it is the state of `XINIT 0`. -/
def Obligations.ResetRegisterValues : Prop :=
  State.reset.hash =
    { seed := 0x00000000
      lane := ⟨0x24234428, 0x85EBCA77, 0x00000000, 0x61C8864F⟩
      totalLen := 0
      buf := []
      phase := .streaming } ∧
  ∀ s : State, ∃ t, exec (.xinit 0) s = .next t ∧ t.hash = State.reset.hash

/-- R191 (the spec's decision D13): from every state a reset, between commands or abandoning one, leaves the registers at
their reset values with no trace of the state before and produces no response; the cap is no register and stays (R192). -/
def Obligations.HardwareResetFromAnyState : Prop :=
  ∀ (s : State) (e : HostEvent) (rest : List HostEvent),
    s.inbox = e :: rest → (e = .reset ∨ ∃ cw P, e = .resetDuring cw P) →
    step s = .next
      { s with
        hash :=
          { seed := 0x00000000
            lane := ⟨0x24234428, 0x85EBCA77, 0x00000000, 0x61C8864F⟩
            totalLen := 0
            buf := []
            phase := .streaming }
        inbox := rest }

/-! ### `XWRITE` -/

/-- `XWRITE` completes, for every payload within the cap, in phase Streaming, below the length the spec gives no meaning
(R130); its result is the closed form that R131 derives, and its encoding that of R130. The premise on the buffer is I-1 of
R28, which every step keeps (`StepKeepsInvariants`). -/
def Obligations.XwriteResult : Prop :=
  ∀ (P : Payload) (s : State),
    s.hash.phase = .streaming → s.hash.buf.length < 16 → P.length ≤ s.maxWriteBytes.toNat →
    s.hash.totalLen.toNat + P.length < 2 ^ 64 →
    exec (.xwrite P) s = .next
      { s with
        hash :=
          { s.hash with
            lane := (List.range ((s.hash.buf ++ P).length / 16)).foldl
              (fun L j => fold L (slice (s.hash.buf ++ P) (16 * j) (16 * j + 16))) s.hash.lane
            totalLen := BitVec.ofNat 64 (s.hash.totalLen.toNat + P.length)
            buf := (s.hash.buf ++ P).drop (16 * ((s.hash.buf ++ P).length / 16)) }
        responses := s.responses ++ [responseWord .ok 0 (BitVec.ofNat 64 P.length)] } ∧
    (∀ cw Q, decode cw Q = .ok (.xwrite P) ↔ FieldsAre cw Q 0x03 0 P)

/-- Corner cases of R130: fewer than 16 bytes in all change the buffer and the counter only; exactly 16 fold one block
and leave the buffer empty; a multiple of 16 from an empty buffer leaves it empty; an empty payload changes no register;
and always `BUF_CNT` becomes `(BUF_CNT + LEN) mod 16` (R25). -/
def Obligations.XwriteCornerCases : Prop :=
  ∀ (P : Payload) (s : State),
    s.hash.phase = .streaming → s.hash.buf.length < 16 → P.length ≤ s.maxWriteBytes.toNat →
    s.hash.totalLen.toNat + P.length < 2 ^ 64 →
    ∃ t, exec (.xwrite P) s = .next t ∧
      (s.hash.buf.length + P.length < 16 → t.hash.lane = s.hash.lane ∧ t.hash.buf = s.hash.buf ++ P) ∧
      (s.hash.buf.length + P.length = 16 → t.hash.lane = fold s.hash.lane (s.hash.buf ++ P) ∧ t.hash.buf = []) ∧
      (s.hash.buf = [] → P.length % 16 = 0 → t.hash.buf = []) ∧
      (P = [] → t.hash = s.hash) ∧
      t.hash.bufCnt = (s.hash.bufCnt + P.length) % 16

/-- R161: `XWRITE` in phase Finalized, whatever the payload, the empty one included: `InvalidState` and nothing else; in
phase Streaming never `InvalidState`; and after `XINIT` or `XRESET` an `XWRITE` within the cap is accepted again. -/
def Obligations.XwriteAfterDigestIsInvalidState : Prop :=
  ∀ (P : Payload) (s : State),
    (∀ d, s.hash.phase = .finalized d →
      exec (.xwrite P) s = .next { s with responses := s.responses ++ [0x01000000000000000000000000000000] }) ∧
    (s.hash.phase = .streaming →
      exec (.xwrite P) s ≠ .next { s with responses := s.responses ++ [0x01000000000000000000000000000000] }) ∧
    (∀ i, isInit i = true → P.length ≤ s.maxWriteBytes.toNat →
      ∃ t u, exec i s = .next t ∧ exec (.xwrite P) t = .next u ∧
        u.responses = t.responses ++ [responseWord .ok 0 (BitVec.ofNat 64 P.length)])

/-- R162: `XWRITE` in phase Streaming and `XSUM` in either phase end `LengthLimitExceeded`, and change nothing, exactly when
`LEN` exceeds the cap, whatever `TOTAL_LEN` is; with the cap `2^64 - 1` no command that has an encoding does. -/
def Obligations.OverLongCommandIsLengthLimitExceeded : Prop :=
  ∀ (P : Payload) (s : State),
    (s.hash.phase = .streaming →
      (exec (.xwrite P) s = .next { s with responses := s.responses ++ [0x02000000000000000000000000000000] } ↔
        s.maxWriteBytes.toNat < P.length)) ∧
    (∀ seed,
      (exec (.xsum seed P) s = .next { s with responses := s.responses ++ [0x02000000000000000000000000000000] } ↔
        s.maxWriteBytes.toNat < P.length)) ∧
    (s.maxWriteBytes = 0xFFFFFFFFFFFFFFFF → Instr.wf (.xwrite P) = true → ¬ s.maxWriteBytes.toNat < P.length)

/-- R160 and R164 (the order is the spec's decision D7, the third kind its D6): the one status of a command that answers,
exactly. `IllegalCommand` comes first, then `InvalidState`, then `LengthLimitExceeded`. -/
def Obligations.StatusExactly : Prop :=
  ∀ (s t : State) (cw : Desc) (P : Payload) (rest : List HostEvent),
    s.inbox = .command cw P :: rest → step s = .next t →
    ∃ rw, t.responses = s.responses ++ [rw] ∧
      (rwStatus rw = 0x03 ↔ ∃ why, decode cw P = .error why) ∧
      (rwStatus rw = 0x01 ↔ decode cw P = .ok (.xwrite P) ∧ s.hash.phase ≠ .streaming) ∧
      (rwStatus rw = 0x02 ↔
        s.maxWriteBytes.toNat < P.length ∧
          ((decode cw P = .ok (.xwrite P) ∧ s.hash.phase = .streaming) ∨ ∃ seed, decode cw P = .ok (.xsum seed P))) ∧
      (rwStatus rw ≠ 0x00 → rwValue rw = 0 ∧ rwCount rw = 0) ∧
      (rwStatus rw).toNat ≤ 3

/-- R13, R130 and R170: a command is refused exactly when it is an `XWRITE` that passes its checks and would carry
`TOTAL_LEN` to `2^64` or beyond (the spec's decision D10: "a model must refuse it"). -/
def Obligations.RefusedExactlyOnLengthOverflow : Prop :=
  ∀ (i : Instr) (s : State) (r : Refusal),
    exec i s = .refused r ↔
      r = .totalLenOverflow ∧
      ∃ P, i = .xwrite P ∧ s.hash.phase = .streaming ∧ P.length ≤ s.maxWriteBytes.toNat ∧
        2 ^ 64 ≤ s.hash.totalLen.toNat + P.length

/-- R134, derived by the spec: a failed or zero-length `XWRITE` is invisible: whatever commands follow, the registers and
every later response are what they would have been without it. -/
def Obligations.FailedOrEmptyWriteIsInvisible : Prop :=
  ∀ (P : Payload) (later : List Instr) (s t : State),
    (s.hash.phase ≠ .streaming ∨ s.maxWriteBytes.toNat < P.length ∨ (P = [] ∧ s.hash.buf.length < 16)) →
    runInstrs (.xwrite P :: later) s = .next t →
    ∃ u, runInstrs later s = .next u ∧ u.hash = t.hash ∧ u.responses = t.responses.eraseIdx s.responses.length

/-- R132, derived by the spec from R131: chunking invariance of the whole HashState. For every way of cutting a byte
sequence into chunks, empty ones included, writing the chunks and writing the whole leave equal registers, whenever each
write is within the cap and the total within the length the spec gives a meaning. -/
def Obligations.ChunkingInvariance : Prop :=
  ∀ (chunks : List Payload) (s : State),
    s.hash.phase = .streaming → s.hash.buf.length < 16 →
    (∀ b ∈ chunks, b.length ≤ s.maxWriteBytes.toNat) → chunks.flatten.length ≤ s.maxWriteBytes.toNat →
    s.hash.totalLen.toNat + chunks.flatten.length < 2 ^ 64 →
    ∃ t u, runInstrs (chunks.map .xwrite) s = .next t ∧ exec (.xwrite chunks.flatten) s = .next u ∧ t.hash = u.hash

/-! ### `XDIGEST` -/

/-- R141: `XDIGEST` from every state, and its encoding. In phase Streaming it caches and returns `Finalize` of the registers
and keeps the others (the spec's decision D14); in phase Finalized it returns the cached digest and changes no register. -/
def Obligations.XdigestResult : Prop :=
  (∀ s : State,
    (s.hash.phase = .streaming →
      exec .xdigest s = .next
        { s with
          hash :=
            { s.hash with
              phase := .finalized (finalize s.hash.seed s.hash.totalLen s.hash.lane s.hash.buf) }
          responses := s.responses ++
            [responseWord .ok (finalize s.hash.seed s.hash.totalLen s.hash.lane s.hash.buf) 0] }) ∧
    (∀ d, s.hash.phase = .finalized d →
      exec .xdigest s = .next { s with responses := s.responses ++ [responseWord .ok d 0] })) ∧
  (∀ cw P, decode cw P = .ok .xdigest ↔ FieldsAre cw P 0x04 0 [])

/-- R140: `Finalize`: the branch on the full 64-bit count, the low 32 bits of it added, `floor(|T| / 4)` little-endian
words, then `|T| mod 4` bytes, then `avalanche`. -/
def Obligations.FinalizeClosedForm : Prop :=
  ∀ (seed : Word) (total : Len) (L : Lanes) (T : Payload), T.length ≤ 15 →
    finalize seed total L T =
      avalanche
        ((List.range (T.length % 4)).foldl (fun acc j => tailbyte acc (T.getD (4 * (T.length / 4) + j) 0))
          ((List.range (T.length / 4)).foldl (fun acc j => tailword acc (memRead4 T (4 * j)))
            ((if total.toNat < 16 then seed + 374761393 else merge L) + BitVec.ofNat 32 (total.toNat % 2 ^ 32))))

/-- What R199 derives from R140: only the low 32 bits of the count enter the digest of a session of at least 16 bytes, and
the seed register does not. -/
def Obligations.DigestUsesLowLengthBits : Prop :=
  ∀ (seed seed' : Word) (total total' : Len) (L : Lanes) (T : Payload),
    16 ≤ total.toNat → 16 ≤ total'.toNat → total.toNat % 2 ^ 32 = total'.toNat % 2 ^ 32 →
    finalize seed total L T = finalize seed' total' L T

/-- R142, derived by the spec: after an `XDIGEST`, whatever commands other than initialisations follow, none is refused,
the registers stay as they are, and a further `XDIGEST` returns the identical value. -/
def Obligations.XdigestIsIdempotent : Prop :=
  ∀ (s t : State) (between : List Instr),
    exec .xdigest s = .next t → (∀ i ∈ between, isInit i = false) →
    ∃ d u v, t.responses = s.responses ++ [responseWord .ok d 0] ∧ runInstrs between t = .next u ∧
      u.hash = t.hash ∧ exec .xdigest u = .next v ∧ v.hash = t.hash ∧
      v.responses = u.responses ++ [responseWord .ok d 0]

/-- What R144 derives from R140 and R106: all seeds give pairwise different digests of the empty input. -/
def Obligations.EmptyDigestSeparatesSeeds : Prop :=
  ∀ (x y : Word) (s t u : State),
    exec (.xsum x []) s = .next t → exec (.xsum y []) s = .next u → t.responses = u.responses → x = y

/-! ### `XSUM` and `XINFO` -/

/-- `XSUM` within the cap (R150), from every state, in either phase, and its encoding: the digest of the payload in the
response, and nothing else changed. The digest is `XXH32(P, seed)` as R143 derives it, written out. -/
def Obligations.XsumResult : Prop :=
  ∀ (seed : Word) (P : Payload) (s : State), P.length ≤ s.maxWriteBytes.toNat →
    exec (.xsum seed P) s = .next
      { s with
        responses := s.responses ++
          [responseWord .ok
            (finalize seed (BitVec.ofNat 64 P.length)
              ((List.range (P.length / 16)).foldl (fun L j => fold L (slice P (16 * j) (16 * j + 16)))
                ⟨seed + 2654435761 + 2246822519, seed + 2246822519, seed, seed - 2654435761⟩)
              (P.drop (16 * (P.length / 16)))) 0] } ∧
    (∀ cw Q, decode cw Q = .ok (.xsum seed P) ↔ FieldsAre cw Q 0x05 seed P)

/-- R151, derived by the spec: the streaming path, run by the machine's own steps from every state, whatever was in
progress: `XINIT seed`, one `XWRITE` for each chunk of any cutting, `XDIGEST`. Each command gets its one response, the last
carries `XXH32` of the concatenation, and a one-shot of the concatenation within the cap answers the same word. -/
def Obligations.XsumEqualsStreamingPath : Prop :=
  ∀ (seed : Word) (chunks : List Payload) (rest : List HostEvent) (s : State),
    (∀ b ∈ chunks, b.length ≤ s.maxWriteBytes.toNat) → chunks.flatten.length < 2 ^ 64 →
    s.inbox = commandOf (.xinit seed) :: (chunks.map (fun b => commandOf (.xwrite b)) ++ commandOf .xdigest :: rest) →
    ∃ t, Host.Core.run Sys2Proof.core (chunks.length + 2) s = .next t ∧ t.inbox = rest ∧
      t.responses = s.responses ++ (responseWord .ok 0 0 ::
        (chunks.map (fun b => responseWord .ok 0 (BitVec.ofNat 64 b.length)) ++
          [responseWord .ok (xxh32 chunks.flatten seed) 0])) ∧
      (chunks.flatten.length ≤ s.maxWriteBytes.toNat →
        exec (.xsum seed chunks.flatten) t =
          .next { t with responses := t.responses ++ [responseWord .ok (xxh32 chunks.flatten seed) 0] })

/-- The source's known vectors (R151, R144) and the digest of "test" (R151): the responses from reset, where the model's own
list of responses is empty (log 1). -/
def Obligations.KnownDigests : Prop :=
  (∃ t, exec (.xsum 0 []) State.reset = .next t ∧ t.responses = [0x0000000002CC5D050000000000000000]) ∧
  (∃ t, exec (.xsum 1 []) State.reset = .next t ∧ t.responses = [0x000000000B2CB7920000000000000000]) ∧
  (∃ t, exec (.xsum 0 [0x74, 0x65, 0x73, 0x74]) State.reset = .next t ∧
    t.responses = [0x000000003E2023CF0000000000000000])

/-- R152 (the packing is the spec's decision D18): `XINFO` from every state, and its encoding: digest size 4 in bits 7..0,
block size 16 in bits 15..8, zero above, and the cap; nothing else changed. -/
def Obligations.XinfoResult : Prop :=
  (∀ s : State,
    exec .xinfo s = .next { s with responses := s.responses ++ [responseWord .ok 0x00001004 s.maxWriteBytes] }) ∧
  (∀ cw P, decode cw P = .ok .xinfo ↔ FieldsAre cw P 0x06 0 [])

/-- R153, derived by the spec: removing an `XSUM` or `XINFO` from any command sequence changes no register and no other
command's response. -/
def Obligations.RemovingOneShotChangesNothingElse : Prop :=
  ∀ (before after : List Instr) (j : Instr) (s t : State),
    isAside j = true → runInstrs (before ++ j :: after) s = .next t →
    ∃ u, runInstrs (before ++ after) s = .next u ∧ u.hash = t.hash ∧
      u.responses = t.responses.eraseIdx (s.responses.length + before.length)

/-! ### Responses -/

/-- R77 and R78 (the spec's decision D5): the fields of a response word and the four status codes. -/
def Obligations.ResponseWordFields : Prop :=
  (∀ (st : Status) (v : Word) (c : Len),
    (responseWord st v c).extractLsb' 120 8 = st.code ∧ (responseWord st v c).extractLsb' 96 24 = 0 ∧
    (responseWord st v c).extractLsb' 64 32 = v ∧ (responseWord st v c).extractLsb' 0 64 = c) ∧
  Status.ok.code = 0x00 ∧ Status.invalidState.code = 0x01 ∧ Status.lengthLimitExceeded.code = 0x02 ∧
  Status.illegalCommand.code = 0x03

/-- R84 (the spec's decision D3): every command produces exactly one response, after the earlier ones, and the next
command is then taken; and the commands other than `XWRITE` and `XSUM` never end with an error. -/
def Obligations.OneResponsePerCommand : Prop :=
  ∀ (s t : State) (cw : Desc) (P : Payload) (rest : List HostEvent),
    s.inbox = .command cw P :: rest → step s = .next t →
    t.inbox = rest ∧ ∃ rw, t.responses = s.responses ++ [rw] ∧
      ∀ i, decode cw P = .ok i → i.op ≠ .xwrite → i.op ≠ .xsum → rwStatus rw = 0x00

/-- R79 (the spec's decision D9): the response of each command and outcome, complete. -/
def Obligations.ResponseValuesComplete : Prop :=
  ∀ (s t : State) (cw : Desc) (P : Payload) (rest : List HostEvent),
    s.inbox = .command cw P :: rest → step s = .next t →
    ∃ rw, t.responses = s.responses ++ [rw] ∧
      match decode cw P with
      | .error _ => rw = responseWord .illegalCommand 0 0
      | .ok (.xinit _) => rw = responseWord .ok 0 0
      | .ok .xreset => rw = responseWord .ok 0 0
      | .ok (.xwrite _) =>
        rw = responseWord .ok 0 (Desc.len cw) ∨ rw = responseWord .invalidState 0 0 ∨
          rw = responseWord .lengthLimitExceeded 0 0
      | .ok .xdigest => ∃ d, t.hash.phase = .finalized d ∧ rw = responseWord .ok d 0
      | .ok (.xsum seed _) => rw = responseWord .ok (xxh32 P seed) 0 ∨ rw = responseWord .lengthLimitExceeded 0 0
      | .ok .xinfo => rw = responseWord .ok 0x00001004 s.maxWriteBytes

/-- R165: a command that ends with an error, of any kind, changes no register, and neither the cap nor an earlier response;
its response is the error's code alone, and the next command is then taken. -/
def Obligations.ErrorChangesNoRegister : Prop :=
  ∀ (s t : State) (cw : Desc) (P : Payload) (rest : List HostEvent) (rw : Desc),
    s.inbox = .command cw P :: rest → step s = .next t → t.responses = s.responses ++ [rw] → rwStatus rw ≠ 0x00 →
    t = { s with inbox := rest, responses := s.responses ++ [rw] } ∧
      (rw = 0x01000000000000000000000000000000 ∨ rw = 0x02000000000000000000000000000000 ∨
        rw = 0x03000000000000000000000000000000)

/-- R3: no command returns lane, buffer, length or seed contents but through a digest: the response that `XWRITE` gives
depends on the phase and the cap alone, and that of the commands other than `XWRITE` and `XDIGEST` on the cap alone. -/
def Obligations.ResponsesRevealNoRegister : Prop :=
  ∀ (i : Instr) (s s' t t' : State),
    s.maxWriteBytes = s'.maxWriteBytes → s.responses = s'.responses → i ≠ .xdigest →
    ((∃ P, i = .xwrite P) → s.hash.phase.isStreaming = s'.hash.phase.isStreaming) →
    exec i s = .next t → exec i s' = .next t' → t.responses = t'.responses

/-! ### Invariants and rules of the whole machine -/

/-- R28: I-1, I-3, I-6 and I-7 of the registers, and R77, R78 of every response, hold after reset. -/
def Obligations.ResetSatisfiesInvariants : Prop := State.reset.wf = true

/-- R28: every step keeps I-1, I-3, I-6 and I-7 of the registers and the form of every response, from every state that has
them. -/
def Obligations.StepKeepsInvariants : Prop :=
  ∀ s t : State, s.wf = true → step s = .next t → t.wf = true

/-- The reset state is a session into which nothing has been written (R193). -/
def Obligations.ResetIsEmptySession : Prop := IsSession State.reset.hash ∧ State.reset.hash = sessionState 0 []

/-- Every step keeps the closed form of a session that R131 and R143 derive (I-2, I-4 to I-8 of R28): the lanes, the buffer
and the count are those of one byte sequence, and a digest, once taken, is its `XXH32`. -/
def Obligations.StepKeepsSession : Prop :=
  ∀ s t : State, IsSession s.hash → step s = .next t → IsSession t.hash

/-- I-1, I-3, I-6 and I-7 of R28 follow from the closed form of a session (the derivations R28 names). -/
def Obligations.SessionHasInvariants : Prop :=
  ∀ h : HashState, IsSession h → h.wf = true

/-- R30: the phase transitions, complete: every host move in every state. -/
def Obligations.PhaseTransitions : Prop :=
  ∀ s t : State, step s = .next t →
    match s.inbox with
    | [] => t.hash.phase = s.hash.phase
    | .reset :: _ => t.hash.phase = .streaming
    | .resetDuring _ _ :: _ => t.hash.phase = .streaming
    | .command cw P :: _ =>
      match decode cw P with
      | .error _ => t.hash.phase = s.hash.phase
      | .ok (.xinit _) => t.hash.phase = .streaming
      | .ok .xreset => t.hash.phase = .streaming
      | .ok (.xwrite _) => t.hash.phase = s.hash.phase
      | .ok .xdigest =>
        (s.hash.phase = .streaming →
          t.hash.phase = .finalized (finalize s.hash.seed s.hash.totalLen s.hash.lane s.hash.buf)) ∧
        (∀ d, s.hash.phase = .finalized d → t.hash.phase = .finalized d)
      | .ok (.xsum _ _) => t.hash.phase = s.hash.phase
      | .ok .xinfo => t.hash.phase = s.hash.phase

/-- I-8 of R28 and R30: while Finalized, only a reset, `XINIT` or `XRESET` changes any register. -/
def Obligations.FinalizedRegistersAreFrozen : Prop :=
  ∀ (s t : State) (d : Word), s.hash.phase = .finalized d → step s = .next t → t.hash ≠ s.hash →
    ∃ e rest, s.inbox = e :: rest ∧
      (e = .reset ∨ (∃ cw P, e = .resetDuring cw P) ∨
       (∃ cw P i, e = .command cw P ∧ decode cw P = .ok i ∧ isInit i = true))

/-- R21: `SEED` is written only by `XINIT`, to its operand, and by hardware reset, to 0. -/
def Obligations.SeedIsWrittenOnlyByXinitAndReset : Prop :=
  ∀ s t : State, step s = .next t → t.hash.seed ≠ s.hash.seed →
    ∃ e rest, s.inbox = e :: rest ∧
      ((e = .reset ∧ t.hash.seed = 0) ∨ (∃ cw P, e = .resetDuring cw P ∧ t.hash.seed = 0) ∨
       (∃ cw P, e = .command cw P ∧ decode cw P = .ok (.xinit t.hash.seed)))

/-- R23 and R172: `TOTAL_LEN` is set to 0 by hardware reset, `XINIT` and `XRESET`, increased by `LEN` by an `XWRITE` that ends
`OK`, without wrapping, and changed by nothing else. -/
def Obligations.TotalLenIsCountedOnlyByXwrite : Prop :=
  ∀ s t : State, step s = .next t →
    match s.inbox with
    | [] => t.hash.totalLen = s.hash.totalLen
    | .reset :: _ => t.hash.totalLen = 0
    | .resetDuring _ _ :: _ => t.hash.totalLen = 0
    | .command cw P :: _ =>
      match decode cw P with
      | .error _ => t.hash.totalLen = s.hash.totalLen
      | .ok (.xinit _) => t.hash.totalLen = 0
      | .ok .xreset => t.hash.totalLen = 0
      | .ok (.xwrite _) =>
        ∃ rw, t.responses = s.responses ++ [rw] ∧
          (rwStatus rw = 0x00 → t.hash.totalLen.toNat = s.hash.totalLen.toNat + (Desc.len cw).toNat) ∧
          (rwStatus rw ≠ 0x00 → t.hash.totalLen = s.hash.totalLen)
      | .ok .xdigest => t.hash.totalLen = s.hash.totalLen
      | .ok (.xsum _ _) => t.hash.totalLen = s.hash.totalLen
      | .ok .xinfo => t.hash.totalLen = s.hash.totalLen

/-- R34: what a command that answers leaves unchanged: `XWRITE` keeps `SEED`, `PHASE` and `DIGEST`; `XDIGEST` keeps
`SEED`, `LANE`, `TOTAL_LEN` and `BUF`; `XSUM` and `XINFO` keep every register; `XRESET` keeps `SEED`. -/
def Obligations.AccessMatrixFrames : Prop :=
  ∀ (i : Instr) (s t : State), exec i s = .next t →
    match i with
    | .xinit _ => True
    | .xreset => t.hash.seed = s.hash.seed
    | .xwrite _ => t.hash.seed = s.hash.seed ∧ t.hash.phase = s.hash.phase
    | .xdigest =>
      t.hash.seed = s.hash.seed ∧ t.hash.lane = s.hash.lane ∧ t.hash.totalLen = s.hash.totalLen ∧
        t.hash.buf = s.hash.buf
    | .xsum _ _ => t.hash = s.hash
    | .xinfo => t.hash = s.hash

/-- R192: no command and no reset changes `MAX_WRITE_BYTES`. That it is a field of the state is the model's choice
(log 2). -/
def Obligations.CapNeverChanges : Prop :=
  ∀ s t : State, step s = .next t → t.maxWriteBytes = s.maxWriteBytes
end

