-- ==== Sys2Proof/Laws/Decode.lean ====
section
/-!
SUPPORT. The fields of a 128-bit word of the form of R71 and R77, and what decoding can answer.
-/

namespace Sys2Proof

section
variable (a : BitVec 8) (z : BitVec 24) (v : Word) (c : Len)

/-! ### The four fields of a word -/

theorem word_bits_127_120 : (a ++ z ++ v ++ c).extractLsb' 120 8 = a := by
  apply BitVec.eq_of_getLsbD_eq
  intro i hi
  simp only [BitVec.getLsbD_extractLsb', BitVec.getLsbD_append, hi, show ¬ (120 + i < 64) by omega,
    show ¬ (120 + i - 64 < 32) by omega, show ¬ (120 + i - 64 - 32 < 24) by omega,
    show 120 + i - 64 - 32 - 24 = i by omega, if_false, decide_true, Bool.true_and]

theorem word_bits_119_96 : (a ++ z ++ v ++ c).extractLsb' 96 24 = z := by
  apply BitVec.eq_of_getLsbD_eq
  intro i hi
  simp only [BitVec.getLsbD_extractLsb', BitVec.getLsbD_append, hi, show ¬ (96 + i < 64) by omega,
    show ¬ (96 + i - 64 < 32) by omega, show 96 + i - 64 - 32 = i by omega, if_true, if_false, decide_true,
    Bool.true_and]

theorem word_bits_95_64 : (a ++ z ++ v ++ c).extractLsb' 64 32 = v := by
  apply BitVec.eq_of_getLsbD_eq
  intro i hi
  simp only [BitVec.getLsbD_extractLsb', BitVec.getLsbD_append, show ¬ (64 + i < 64) by omega, if_false,
    Nat.add_sub_cancel_left, hi, if_true, decide_true, Bool.true_and]

theorem word_bits_63_0 : (a ++ z ++ v ++ c).extractLsb' 0 64 = c := by
  apply BitVec.eq_of_getLsbD_eq
  intro i hi
  simp only [BitVec.getLsbD_extractLsb', BitVec.getLsbD_append, Nat.zero_add, hi, if_true, decide_true, Bool.true_and]

end

/-- A 128-bit word is its four fields. -/
theorem word_eq_fields (w : Desc) :
    w = w.extractLsb' 120 8 ++ w.extractLsb' 96 24 ++ w.extractLsb' 64 32 ++ w.extractLsb' 0 64 := by
  apply BitVec.eq_of_getLsbD_eq
  intro i hi
  simp only [BitVec.getLsbD_append, BitVec.getLsbD_extractLsb']
  split
  · simp [*]
  · split
    · simp [*, show 64 + (i - 64) = i by omega]
    · split
      · simp [*, show 96 + (i - 64 - 32) = i by omega]
      · simp [show 120 + (i - 64 - 32 - 24) = i by omega]; omega

theorem word_ext {w w' : Desc} (h1 : w.extractLsb' 120 8 = w'.extractLsb' 120 8)
    (h2 : w.extractLsb' 96 24 = w'.extractLsb' 96 24) (h3 : w.extractLsb' 64 32 = w'.extractLsb' 64 32)
    (h4 : w.extractLsb' 0 64 = w'.extractLsb' 0 64) : w = w' := by
  rw [word_eq_fields w, word_eq_fields w', h1, h2, h3, h4]

/-! ### The fields of an encoded descriptor -/

section
variable (a : BitVec 8) (v : Word) (c : Len)

@[simp] theorem opc_mkDesc : Desc.opc (mkDesc a v c) = a := word_bits_127_120 a 0#24 v c
@[simp] theorem rsv_mkDesc : Desc.rsv (mkDesc a v c) = 0 := word_bits_119_96 a 0#24 v c
@[simp] theorem seed_mkDesc : Desc.seed (mkDesc a v c) = v := word_bits_95_64 a 0#24 v c
@[simp] theorem len_mkDesc : Desc.len (mkDesc a v c) = c := word_bits_63_0 a 0#24 v c

/-- A descriptor with `RSV = 0` is made of its other fields. -/
theorem mkDesc_of_fields (w : Desc) (h : Desc.rsv w = 0) : mkDesc (Desc.opc w) (Desc.seed w) (Desc.len w) = w :=
  word_ext (opc_mkDesc _ _ _) ((rsv_mkDesc _ _ _).trans h.symm) (seed_mkDesc _ _ _) (len_mkDesc _ _ _)

end

/-! ### The opcode map -/

@[simp] theorem opOf_code (op : Op) : opOf? op.code = some op := by cases op <;> rfl

theorem opOf_eq_some {opc : BitVec 8} {op : Op} (h : opOf? opc = some op) : opc = op.code := by
  unfold opOf? at h
  repeat' split at h
  all_goals first | (cases h; assumption) | cases h

theorem opOf_eq_none_iff (opc : BitVec 8) : opOf? opc = none ↔ ¬ (1 ≤ opc.toNat ∧ opc.toNat ≤ 6) := by
  revert opc; decide

/-! ### What decoding answers -/

/-- Decoding answers a command exactly when the five steps of R75 pass. -/
theorem decode_eq_ok_iff (cw : Desc) (P : Payload) (i : Instr) :
    decode cw P = .ok i ↔
      Desc.rsv cw = 0 ∧ ∃ op, opOf? (Desc.opc cw) = some op ∧ (op.usesSeed = false → Desc.seed cw = 0) ∧
        (op.usesLen = false → Desc.len cw = 0) ∧ P.length = (Desc.len cw).toNat ∧ i = op.instr (Desc.seed cw) P := by
  unfold decode
  by_cases h0 : Desc.rsv cw = 0
  · rw [if_neg (not_not.2 h0)]
    rcases opOf? (Desc.opc cw) with - | op
    · simp
    · simp only [Option.some.injEq, exists_eq_left', h0, true_and]
      split_ifs with h2 h3 h4
      · exact iff_of_false not_false fun h => h2.2 (h.1 h2.1)
      · exact iff_of_false not_false fun h => h3.2 (h.2.1 h3.1)
      · exact iff_of_false not_false fun h => h4 h.2.2.1
      · rw [Except.ok.injEq, eq_comm]
        exact ⟨fun h => ⟨fun hs => not_not.1 fun hn => h2 ⟨hs, hn⟩, fun hl => not_not.1 fun hn => h3 ⟨hl, hn⟩,
          not_not.1 h4, h⟩, fun h => h.2.2.2⟩
  · rw [if_pos h0]
    exact iff_of_false (by simp) fun h => h0 h.1

/-- Decoding is total: it answers a command or a reason (R75). -/
theorem decode_ok_or_error (cw : Desc) (P : Payload) :
    (∃ i, decode cw P = .ok i) ∨ ∃ e, decode cw P = .error e := by
  rcases h : decode cw P with e | i
  · exact .inr ⟨e, rfl⟩
  · exact .inl ⟨i, rfl⟩

/-! ### Encoding -/

theorem encode_payload (i : Instr) : (encode i).2 = i.payload := by cases i <;> rfl

theorem opc_encode (i : Instr) : Desc.opc (encode i).1 = i.op.code := by cases i <;> exact opc_mkDesc _ _ _

theorem rsv_encode (i : Instr) : Desc.rsv (encode i).1 = 0 := by cases i <;> exact rsv_mkDesc _ _ _

theorem len_encode (i : Instr) (h : i.wf = true) : (Desc.len (encode i).1).toNat = i.payload.length := by
  cases i <;> simp_all [encode, Instr.wf, Instr.payload, Payload.fits, Nat.mod_eq_of_lt]

end Sys2Proof
end

