-- ==== Sys2Proof/Laws/State.lean ====
section
/-!
SUPPORT. One lemma per field per update of the state, each true by unfolding, so that no later proof unfolds an update.
-/

namespace Sys2Proof.Machine

section
variable (s : State) (h : HashState) (evs : List HostEvent) (e : HostEvent) (st : Status) (v : Word) (c : Len)

@[simp] theorem setHash_hash : (s.setHash h).hash = h := rfl
@[simp] theorem setHash_maxWriteBytes : (s.setHash h).maxWriteBytes = s.maxWriteBytes := rfl
@[simp] theorem setHash_inbox : (s.setHash h).inbox = s.inbox := rfl
@[simp] theorem setHash_responses : (s.setHash h).responses = s.responses := rfl

@[simp] theorem setInbox_hash : (s.setInbox evs).hash = s.hash := rfl
@[simp] theorem setInbox_maxWriteBytes : (s.setInbox evs).maxWriteBytes = s.maxWriteBytes := rfl
@[simp] theorem setInbox_inbox : (s.setInbox evs).inbox = evs := rfl
@[simp] theorem setInbox_responses : (s.setInbox evs).responses = s.responses := rfl

@[simp] theorem respond_hash : (s.respond st v c).hash = s.hash := rfl
@[simp] theorem respond_maxWriteBytes : (s.respond st v c).maxWriteBytes = s.maxWriteBytes := rfl
@[simp] theorem respond_inbox : (s.respond st v c).inbox = s.inbox := rfl
@[simp] theorem respond_responses : (s.respond st v c).responses = s.responses ++ [responseWord st v c] := rfl

@[simp] theorem present_hash : (s.present e).hash = s.hash := rfl
@[simp] theorem present_maxWriteBytes : (s.present e).maxWriteBytes = s.maxWriteBytes := rfl
@[simp] theorem present_inbox : (s.present e).inbox = e :: s.inbox := rfl
@[simp] theorem present_responses : (s.present e).responses = s.responses := rfl

@[simp] theorem hardwareReset_hash : (hardwareReset s).hash = initState Config.defaultSeed := rfl
@[simp] theorem hardwareReset_maxWriteBytes : (hardwareReset s).maxWriteBytes = s.maxWriteBytes := rfl
@[simp] theorem hardwareReset_inbox : (hardwareReset s).inbox = s.inbox := rfl
@[simp] theorem hardwareReset_responses : (hardwareReset s).responses = s.responses := rfl

/-- The updates written out as one record, for goals that state a next state whole. -/
theorem respond_eq : s.respond st v c = { s with responses := s.responses ++ [responseWord st v c] } := rfl

theorem setInbox_eq : s.setInbox evs = { s with inbox := evs } := rfl

theorem setHash_eq : s.setHash h = { s with hash := h } := rfl

theorem setHash_respond_eq :
    (s.setHash h).respond st v c =
      { s with hash := h, responses := s.responses ++ [responseWord st v c] } := rfl

end

section
variable (h : HashState) (p : Phase) (P : Payload) (seed : Word)

@[simp] theorem setPhase_seed : (h.setPhase p).seed = h.seed := rfl
@[simp] theorem setPhase_lane : (h.setPhase p).lane = h.lane := rfl
@[simp] theorem setPhase_totalLen : (h.setPhase p).totalLen = h.totalLen := rfl
@[simp] theorem setPhase_buf : (h.setPhase p).buf = h.buf := rfl
@[simp] theorem setPhase_phase : (h.setPhase p).phase = p := rfl

@[simp] theorem countBytes_seed : (countBytes h P).seed = h.seed := rfl
@[simp] theorem countBytes_lane : (countBytes h P).lane = h.lane := rfl
@[simp] theorem countBytes_totalLen : (countBytes h P).totalLen = h.totalLen + BitVec.ofNat 64 P.length := rfl
@[simp] theorem countBytes_buf : (countBytes h P).buf = h.buf := rfl
@[simp] theorem countBytes_phase : (countBytes h P).phase = h.phase := rfl

@[simp] theorem initState_seed : (initState seed).seed = seed := rfl
@[simp] theorem initState_lane : (initState seed).lane = initLanes seed := rfl
@[simp] theorem initState_totalLen : (initState seed).totalLen = 0 := rfl
@[simp] theorem initState_buf : (initState seed).buf = [] := rfl
@[simp] theorem initState_phase : (initState seed).phase = .streaming := rfl

@[simp] theorem isStreaming_streaming : Phase.isStreaming .streaming = true := rfl
@[simp] theorem isStreaming_finalized (d : Word) : Phase.isStreaming (.finalized d) = false := rfl
@[simp] theorem digest?_streaming : Phase.digest? .streaming = none := rfl
@[simp] theorem digest?_finalized (d : Word) : Phase.digest? (.finalized d) = some d := rfl

/-- `VALUE` of `XINFO` as a number (R152). -/
theorem infoValue_eq : infoValue = 0x00001004 := by decide

theorem reset_hash : State.reset.hash = initState Config.defaultSeed := rfl
end

end Sys2Proof.Machine
end

