-- ==== Sys2Proof/Laws/Mixing.lean ====
section
/-!
SUPPORT. What the byte-space operations, the rotation, the block folds and the tail steps say: one lemma for each.
-/

namespace Sys2Proof.Machine

/-! ### Byte spaces -/

/-- Writing at the end of the buffer appends (R55). -/
theorem memWrite_append (buf T : Payload) : memWrite buf buf.length T = buf ++ T := by
  simp [memWrite]

theorem slice_length (S : Payload) (a b : Nat) (h : b ≤ S.length) : (slice S a b).length = b - a := by
  simp [slice]; omega

/-- A slice of the front part does not see what follows. -/
theorem slice_append_left (S T : Payload) (a b : Nat) (h : b ≤ S.length) : slice (S ++ T) a b = slice S a b := by
  unfold slice
  rcases Nat.lt_or_ge b a with hab | hab
  · simp [Nat.sub_eq_zero_of_le hab.le]
  · rw [List.drop_append_of_le_length (by omega), List.take_append_of_le_length (by simp; omega)]

theorem slice_drop (S : Payload) (k a b : Nat) : slice (S.drop k) a b = slice S (k + a) (k + b) := by
  simp [slice, List.drop_drop, Nat.add_sub_add_left]

theorem slice_zero (S : Payload) (b : Nat) : slice S 0 b = S.take b := by simp [slice]

theorem slice_to_end (S : Payload) (a : Nat) : slice S a S.length = S.drop a := by
  unfold slice; rw [List.take_of_length_le (by simp)]

theorem tailOf_eq_drop (S : Payload) : tailOf S = S.drop (16 * (S.length / 16)) := slice_to_end _ _

theorem tailOf_length (S : Payload) : (tailOf S).length = S.length % 16 := by
  rw [tailOf_eq_drop]; simp; omega

/-- Four bytes as a number, the first the least significant (R53). -/
theorem memRead4_toNat (S : Payload) (off : Nat) :
    (memRead4 S off).toNat = (byteAt S off).toNat + 2 ^ 8 * (byteAt S (off + 1)).toNat
      + 2 ^ 16 * (byteAt S (off + 2)).toNat + 2 ^ 24 * (byteAt S (off + 3)).toNat := by
  have h0 := (byteAt S off).isLt
  have h1 := (byteAt S (off + 1)).isLt
  have h2 := (byteAt S (off + 2)).isLt
  have h3 := (byteAt S (off + 3)).isLt
  simp only [memRead4, BitVec.toNat_append]
  rw [← Nat.shiftLeft_add_eq_or_of_lt h2, ← Nat.shiftLeft_add_eq_or_of_lt h1, ← Nat.shiftLeft_add_eq_or_of_lt h0]
  simp only [Nat.shiftLeft_eq]
  omega

/-! ### The constants as the source writes them (R100) -/

theorem prime1_toNat : prime1.toNat = 2654435761 := by decide
theorem prime2_toNat : prime2.toNat = 2246822519 := by decide
theorem prime3_toNat : prime3.toNat = 3266489917 := by decide
theorem prime4_toNat : prime4.toNat = 668265263 := by decide
theorem prime5_toNat : prime5.toNat = 374761393 := by decide

/-- The lanes of `InitState` with the source's decimal constants (R122). -/
theorem initLanes_decimal (seed : Word) :
    initLanes seed = ⟨seed + 2654435761 + 2246822519, seed + 2246822519, seed, seed - 2654435761⟩ := by
  simp only [initLanes, BitVec.add_comm _ seed, ← BitVec.add_assoc]; rfl

/-- The start of `Finalize` in the spec's order (R140 step 1). -/
theorem finalizeStart_eq (seed : Word) (total : Len) (L : Lanes) :
    finalizeStart seed total L = if 16 ≤ total.toNat then merge L else seed + 374761393 := by
  rw [finalizeStart, BitVec.add_comm]; rfl

/-- The shift-and-xor step on naturals (R104). -/
theorem xorShift_toNat (x : Word) (r : Nat) : (xorShift x r).toNat = x.toNat ^^^ (x.toNat / 2 ^ r) := by
  rw [xorShift, BitVec.toNat_xor, BitVec.toNat_ushiftRight, Nat.shiftRight_eq_div_pow]

/-! ### Rotation -/

/-- The two halves of a rotation do not overlap, so the or is a sum (R10, R103). -/
theorem rotl32_toNat (x : Word) (r : Nat) (h0 : 0 < r) (h : r < 32) : (rotl32 x r).toNat = rotNat x.toNat r := by
  have hx := x.isLt
  have hpow : (2 : Nat) ^ 32 = 2 ^ r * 2 ^ (32 - r) := by rw [← Nat.pow_add]; congr 1; omega
  have hlow : x.toNat / 2 ^ (32 - r) < 2 ^ r := by
    rw [Nat.div_lt_iff_lt_mul (Nat.two_pow_pos _), ← hpow]; exact hx
  have hhigh : x.toNat * 2 ^ r % 2 ^ 32 = (x.toNat % 2 ^ (32 - r)) * 2 ^ r := by
    rw [hpow, Nat.mul_comm x.toNat, Nat.mul_mod_mul_left, Nat.mul_comm]
  unfold rotl32 rotNat
  rw [BitVec.toNat_or, BitVec.toNat_shiftLeft, BitVec.toNat_ushiftRight, Nat.shiftLeft_eq, Nat.shiftRight_eq_div_pow,
    hhigh, ← Nat.shiftLeft_eq, Nat.shiftLeft_add_eq_or_of_lt hlow]

/-- It is the rotation of `BitVec`. -/
theorem rotl32_eq_rotateLeft (x : Word) (r : Nat) (h : r < 32) : rotl32 x r = x.rotateLeft r := by
  rw [rotl32, BitVec.rotateLeft_def, Nat.mod_eq_of_lt h]

/-! ### Block folds -/

/-- The recursion of R130 step 3 is the closed form of R131. -/
theorem foldBlocks_eq_lanesOfBlocks (m : Nat) (L : Lanes) (S : Payload) : foldBlocks m L S = lanesOfBlocks m L S := by
  induction m generalizing L S with
  | zero => rfl
  | succ m ih =>
    rw [foldBlocks, ih, lanesOfBlocks, lanesOfBlocks, List.range_succ_eq_map, List.foldl_cons, List.foldl_map]
    simp only [slice_drop, slice_zero, Nat.mul_zero, Nat.zero_add]
    refine List.foldl_ext _ _ _ fun acc j _ => ?_
    rw [show 16 + 16 * j = 16 * (j + 1) by ring, show 16 + (16 * j + 16) = 16 * (j + 1) + 16 by ring]

/-- Folding block by block can be cut anywhere between blocks. -/
theorem foldBlocks_add (m n : Nat) (L : Lanes) (S : Payload) :
    foldBlocks (m + n) L S = foldBlocks n (foldBlocks m L S) (S.drop (16 * m)) := by
  induction m generalizing L S with
  | zero => simp [foldBlocks]
  | succ m ih =>
    rw [show m + 1 + n = (m + n) + 1 by omega, foldBlocks, ih, foldBlocks, List.drop_drop]
    congr 2; omega

/-- Blocks read only the bytes they cover. -/
theorem foldBlocks_append (m : Nat) (L : Lanes) (S T : Payload) (h : 16 * m ≤ S.length) :
    foldBlocks m L (S ++ T) = foldBlocks m L S := by
  induction m generalizing L S with
  | zero => rfl
  | succ m ih =>
    rw [foldBlocks, foldBlocks, List.take_append_of_le_length (by omega), List.drop_append_of_le_length (by omega),
      ih _ _ (by simp; omega)]

theorem lanesAfter_eq_foldBlocks (L : Lanes) (S : Payload) : lanesAfter L S = foldBlocks (S.length / 16) L S :=
  (foldBlocks_eq_lanesOfBlocks _ _ _).symm

/-- Folding `A`, then the tail of `A` followed by `B`, is folding `A ++ B`: the heart of chunking invariance (R132). -/
theorem lanesAfter_append (L : Lanes) (A B : Payload) :
    lanesAfter (lanesAfter L A) (tailOf A ++ B) = lanesAfter L (A ++ B) := by
  have hlen : (A ++ B).length / 16 = A.length / 16 + (tailOf A ++ B).length / 16 := by
    simp only [List.length_append, tailOf_length]; omega
  rw [lanesAfter_eq_foldBlocks L (A ++ B), hlen, foldBlocks_add, foldBlocks_append _ _ _ _ (by omega),
    List.drop_append_of_le_length (by omega), ← tailOf_eq_drop, lanesAfter_eq_foldBlocks, lanesAfter_eq_foldBlocks]

/-- The tail likewise. -/
theorem tailOf_append (A B : Payload) : tailOf (tailOf A ++ B) = tailOf (A ++ B) := by
  rw [tailOf_eq_drop (tailOf A ++ B), tailOf_eq_drop (A ++ B), tailOf_eq_drop A,
    ← List.drop_append_of_le_length (l₂ := B) (show 16 * (A.length / 16) ≤ A.length by omega), List.drop_drop]
  congr 1
  simp only [List.length_drop, List.length_append]; omega

theorem lanesAfter_short (L : Lanes) (S : Payload) (h : S.length < 16) : lanesAfter L S = L := by
  rw [lanesAfter_eq_foldBlocks, Nat.div_eq_of_lt h]; rfl

theorem tailOf_short (S : Payload) (h : S.length < 16) : tailOf S = S := by
  rw [tailOf_eq_drop, Nat.div_eq_of_lt h]; rfl

/-! ### The tail steps of `Finalize` -/

theorem tailWords_eq_foldl (k : Nat) (acc : Word) (T : Payload) (o : Nat) :
    tailWords k acc T o = (List.range k).foldl (fun a j => tailword a (memRead4 T (o + 4 * j))) acc := by
  induction k generalizing acc o with
  | zero => rfl
  | succ k ih =>
    rw [tailWords, ih, List.range_succ_eq_map, List.foldl_cons, List.foldl_map, Nat.mul_zero, Nat.add_zero]
    refine List.foldl_ext _ _ _ fun a j _ => ?_
    rw [show o + 4 + 4 * j = o + 4 * (j + 1) by ring]

theorem tailBytes_eq_foldl (k : Nat) (acc : Word) (T : Payload) (o : Nat) :
    tailBytes k acc T o = (List.range k).foldl (fun a j => tailbyte a (memRead1 T (o + j))) acc := by
  induction k generalizing acc o with
  | zero => rfl
  | succ k ih =>
    rw [tailBytes, ih, List.range_succ_eq_map, List.foldl_cons, List.foldl_map, Nat.add_zero]
    refine List.foldl_ext _ _ _ fun a j _ => ?_
    rw [show o + 1 + j = o + (j + 1) by ring]

end Sys2Proof.Machine
end

