-- ==== Sys2Proof/Laws/Ops.lean ====
section
/-!
SUPPORT. What each shared operation of Machine/Ops.lean can do, said once.
-/

namespace Sys2Proof.Machine

/-- Raising an error always answers a next state, and says what it holds (R165). -/
theorem raise_eq_next_iff (e : ErrorKind) (s t : State) : raise e s = .next t ↔ t = s.respond e.status 0 0 := by
  simp [raise, eq_comm]

/-- Step 2 of R130: nothing pending, a block not completed, or a block completed and folded. -/
theorem completePending_cases (h : HashState) (P : Payload) (hb : h.buf.length < 16) :
    (h.buf = [] ∧ completePending h P = (h, 0)) ∨
    (h.buf ≠ [] ∧ h.buf.length + P.length < 16 ∧ completePending h P = ({ h with buf := h.buf ++ P }, P.length)) ∨
    (h.buf ≠ [] ∧ 16 ≤ h.buf.length + P.length ∧
      completePending h P =
        ({ h with lane := fold h.lane (h.buf ++ P.take (16 - h.buf.length)), buf := [] }, 16 - h.buf.length)) := by
  rcases Nat.eq_zero_or_pos h.buf.length with h0 | h0
  · left; exact ⟨List.eq_nil_of_length_eq_zero h0, by simp [completePending, HashState.bufCnt, h0]⟩
  · have hne : h.buf ≠ [] := by rintro he; simp [he] at h0
    right
    rcases Nat.lt_or_ge (h.buf.length + P.length) 16 with hl | hl
    · left
      refine ⟨hne, hl, ?_⟩
      have hk : min (16 - h.buf.length) P.length = P.length := by omega
      simp only [completePending, HashState.bufCnt, if_pos h0, hk, memWrite_append, slice_zero, List.take_length]
      rw [if_neg (by omega)]
    · right
      refine ⟨hne, hl, ?_⟩
      have hk : min (16 - h.buf.length) P.length = 16 - h.buf.length := by omega
      simp only [completePending, HashState.bufCnt, if_pos h0, hk, memWrite_append, slice_zero]
      rw [if_pos (by omega), List.take_of_length_le (by simp; omega)]

/-- `XWRITE`'s four steps in closed form (R131): the pending bytes and the payload are one sequence, whose whole blocks
are folded and whose rest is kept. -/
theorem absorb_eq (h : HashState) (P : Payload) (hb : h.buf.length < 16) :
    absorb h P =
      { h with
        lane := lanesAfter h.lane (h.buf ++ P)
        totalLen := h.totalLen + BitVec.ofNat 64 P.length
        buf := tailOf (h.buf ++ P) } := by
  have hb' : (countBytes h P).buf.length < 16 := hb
  rcases completePending_cases (countBytes h P) P hb' with ⟨he, hc⟩ | ⟨-, hl, hc⟩ | ⟨-, hl, hc⟩
  all_goals simp only [countBytes_buf] at *
  · simp only [absorb, hc, foldPayload, keepRest, he, HashState.bufCnt, List.nil_append, lanesAfter_eq_foldBlocks,
      tailOf_eq_drop, countBytes_buf, Nat.sub_zero, List.drop_zero, List.length_nil, countBytes_lane,
      Nat.zero_add]
    simp [memWrite, countBytes]
  · have hm : (P.length - P.length) / 16 = 0 := by omega
    simp only [absorb, hc, foldPayload, keepRest, hm, foldBlocks, HashState.bufCnt, Nat.mul_zero, Nat.add_zero,
      List.drop_length, memWrite_append, List.append_nil]
    rw [lanesAfter_short _ _ (by simpa using hl), tailOf_short _ (by simpa using hl)]
    simp [countBytes]
  · have hlen : (h.buf ++ P).length / 16 = (P.length - (16 - h.buf.length)) / 16 + 1 := by simp; omega
    simp only [absorb, hc, foldPayload, keepRest, HashState.bufCnt, List.length_nil, countBytes_lane]
    rw [lanesAfter_eq_foldBlocks, hlen, foldBlocks, tailOf_eq_drop, hlen]
    have ht : (h.buf ++ P).take 16 = h.buf ++ P.take (16 - h.buf.length) := by
      rw [List.take_append, List.take_of_length_le (by omega)]
    have hd : (h.buf ++ P).drop 16 = P.drop (16 - h.buf.length) := by
      rw [List.drop_append, List.drop_eq_nil_of_le (by omega), List.nil_append]
    have hd2 : (h.buf ++ P).drop (16 * ((P.length - (16 - h.buf.length)) / 16 + 1))
        = P.drop (16 - h.buf.length + 16 * ((P.length - (16 - h.buf.length)) / 16)) := by
      rw [Nat.mul_add, Nat.mul_one, Nat.add_comm, ← List.drop_drop, hd, List.drop_drop]
    rw [ht, hd, hd2]
    simp [memWrite, countBytes]

/-- Two writes in a row are one write of both payloads (R132), on a HashState. -/
theorem absorb_absorb (h : HashState) (P Q : Payload) (hb : h.buf.length < 16) :
    absorb (absorb h P) Q = absorb h (P ++ Q) := by
  rw [absorb_eq h P hb, absorb_eq h (P ++ Q) hb, absorb_eq]
  · simp only [lanesAfter_append, tailOf_append, List.append_assoc, List.length_append, BitVec.ofNat_add,
      BitVec.add_assoc]
  · simp only [tailOf_length]; omega

/-- A whole session in closed form: what `InitState` and one write leave (R131). -/
theorem absorb_initState (seed : Word) (A : Payload) : absorb (initState seed) A = sessionState seed A := by
  rw [absorb_eq _ _ (by simp)]; simp [sessionState, initState]

/-- The digest of a session is `XXH32` (R143). -/
theorem digestOf_sessionState (seed : Word) (A : Payload) : digestOf (sessionState seed A) = xxh32 A seed := rfl

/-- `TOTAL_LEN` counts without wrapping while the spec gives the write a meaning (R23, R130). -/
theorem absorb_totalLen_toNat (h : HashState) (P : Payload) (hb : h.buf.length < 16)
    (hn : h.totalLen.toNat + P.length < 2 ^ 64) : (absorb h P).totalLen.toNat = h.totalLen.toNat + P.length := by
  rw [absorb_eq h P hb, BitVec.toNat_add, BitVec.toNat_ofNat, Nat.add_mod_mod, Nat.mod_eq_of_lt hn]

/-- What a write never touches, in any HashState (R130): `SEED`, `PHASE`, `DIGEST`. -/
theorem completePending_seed (h : HashState) (P : Payload) : (completePending h P).1.seed = h.seed := by
  simp only [completePending, apply_ite Prod.fst, apply_ite HashState.seed, ite_self]

theorem completePending_phase (h : HashState) (P : Payload) : (completePending h P).1.phase = h.phase := by
  simp only [completePending, apply_ite Prod.fst, apply_ite HashState.phase, ite_self]

theorem completePending_totalLen (h : HashState) (P : Payload) :
    (completePending h P).1.totalLen = h.totalLen := by
  simp only [completePending, apply_ite Prod.fst, apply_ite HashState.totalLen, ite_self]

theorem absorb_seed (h : HashState) (P : Payload) : (absorb h P).seed = h.seed := by
  simp only [absorb, foldPayload, keepRest, completePending_seed, countBytes_seed]

theorem absorb_phase (h : HashState) (P : Payload) : (absorb h P).phase = h.phase := by
  simp only [absorb, foldPayload, keepRest, completePending_phase, countBytes_phase]

theorem absorb_totalLen (h : HashState) (P : Payload) :
    (absorb h P).totalLen = h.totalLen + BitVec.ofNat 64 P.length := by
  simp only [absorb, foldPayload, keepRest, completePending_totalLen, countBytes_totalLen]

end Sys2Proof.Machine
end

