-- ==== Sys2Proof/Laws/Exec.lean ====
section
/-!
SUPPORT. What each command's meaning can answer, said once: one lemma per command, and what holds of all six.
-/

namespace Sys2Proof.Machine

/-- `XWRITE` ends in one of four ways, by its checks in order (R130, R164, R170). -/
theorem execXwrite_cases (P : Payload) (s : State) :
    (s.hash.phase.isStreaming = false ∧ execXwrite P s = .next (s.respond .invalidState 0 0)) ∨
    (s.hash.phase = .streaming ∧ s.maxWriteBytes.toNat < P.length ∧
      execXwrite P s = .next (s.respond .lengthLimitExceeded 0 0)) ∨
    (s.hash.phase = .streaming ∧ P.length ≤ s.maxWriteBytes.toNat ∧ 2 ^ 64 ≤ s.hash.totalLen.toNat + P.length ∧
      execXwrite P s = .refused .totalLenOverflow) ∨
    (s.hash.phase = .streaming ∧ P.length ≤ s.maxWriteBytes.toNat ∧ s.hash.totalLen.toNat + P.length < 2 ^ 64 ∧
      execXwrite P s = .next ((s.setHash (absorb s.hash P)).respond .ok 0 (BitVec.ofNat 64 P.length))) := by
  unfold execXwrite
  rcases hp : s.hash.phase with - | d
  · rw [if_neg (by simp)]
    rcases Nat.lt_or_ge s.maxWriteBytes.toNat P.length with hl | hl
    · right; left; exact ⟨rfl, hl, by rw [if_pos hl]; rfl⟩
    · rw [if_neg (by omega)]
      rcases Nat.lt_or_ge (s.hash.totalLen.toNat + P.length) (2 ^ 64) with ho | ho
      · right; right; right; exact ⟨rfl, hl, ho, by rw [if_neg (by omega)]⟩
      · right; right; left; exact ⟨rfl, hl, ho, by rw [if_pos ho]⟩
  · left; exact ⟨rfl, by rw [if_pos (by simp)]; rfl⟩

/-- `XSUM` ends in one of two ways (R150, R170). -/
theorem execXsum_cases (seed : Word) (P : Payload) (s : State) :
    (s.maxWriteBytes.toNat < P.length ∧ execXsum seed P s = .next (s.respond .lengthLimitExceeded 0 0)) ∨
    (P.length ≤ s.maxWriteBytes.toNat ∧
      execXsum seed P s = .next (s.respond .ok (digestOf (absorb (initState seed) P)) 0)) := by
  unfold execXsum
  rcases Nat.lt_or_ge s.maxWriteBytes.toNat P.length with hl | hl
  · left; exact ⟨hl, by rw [if_pos hl]; rfl⟩
  · right; exact ⟨hl, by rw [if_neg (by omega)]⟩

theorem execXdigest_streaming (s : State) (h : s.hash.phase = .streaming) :
    execXdigest s =
      .next ((s.setHash (s.hash.setPhase (.finalized (digestOf s.hash)))).respond .ok (digestOf s.hash) 0) := by
  simp [execXdigest, h]

theorem execXdigest_finalized (s : State) (d : Word) (h : s.hash.phase = .finalized d) :
    execXdigest s = .next (s.respond .ok d 0) := by
  simp [execXdigest, h]

/-- What a command can leave: one response after the earlier ones, the cap and the host's moves as before, and the
HashState as one of the five ways the commands write it. -/
theorem exec_next_cases {i : Instr} {s t : State} (h : exec i s = .next t) :
    ∃ st v c, t = (s.setHash t.hash).respond st v c ∧
      (t.hash = s.hash ∨
       (∃ seed, i = .xinit seed ∧ t.hash = initState seed) ∨
       (i = .xreset ∧ t.hash = initState s.hash.seed) ∨
       (∃ P, i = .xwrite P ∧ s.hash.phase = .streaming ∧ s.hash.totalLen.toNat + P.length < 2 ^ 64 ∧
          t.hash = absorb s.hash P) ∨
       (i = .xdigest ∧ s.hash.phase = .streaming ∧
          t.hash = s.hash.setPhase (.finalized (digestOf s.hash)))) := by
  cases i with
  | xinit seed => cases h; exact ⟨.ok, 0, 0, rfl, .inr (.inl ⟨seed, rfl, rfl⟩)⟩
  | xreset => cases h; exact ⟨.ok, 0, 0, rfl, .inr (.inr (.inl ⟨rfl, rfl⟩))⟩
  | xwrite P =>
    change execXwrite P s = _ at h
    rcases execXwrite_cases P s with ⟨-, e⟩ | ⟨-, -, e⟩ | ⟨-, -, -, e⟩ | ⟨hp, -, ho, e⟩
    · rw [e] at h; cases h; exact ⟨.invalidState, 0, 0, rfl, .inl rfl⟩
    · rw [e] at h; cases h; exact ⟨.lengthLimitExceeded, 0, 0, rfl, .inl rfl⟩
    · rw [e] at h; cases h
    · rw [e] at h; cases h; exact ⟨.ok, 0, _, rfl, .inr (.inr (.inr (.inl ⟨P, rfl, hp, ho, rfl⟩)))⟩
  | xdigest =>
    change execXdigest s = _ at h
    rcases hp : s.hash.phase with - | d
    · rw [execXdigest_streaming s hp] at h
      cases h; exact ⟨.ok, _, 0, rfl, .inr (.inr (.inr (.inr ⟨rfl, rfl, rfl⟩)))⟩
    · rw [execXdigest_finalized s d hp] at h
      cases h; exact ⟨.ok, d, 0, rfl, .inl rfl⟩
  | xsum seed P =>
    change execXsum seed P s = _ at h
    rcases execXsum_cases seed P s with ⟨-, e⟩ | ⟨-, e⟩ <;> rw [e] at h <;> cases h
    · exact ⟨.lengthLimitExceeded, 0, 0, rfl, .inl rfl⟩
    · exact ⟨.ok, _, 0, rfl, .inl rfl⟩
  | xinfo => cases h; exact ⟨.ok, infoValue, _, rfl, .inl rfl⟩

/-- No command faults: `Fault` is empty. -/
theorem outcome_not_fault {o : Host.Outcome State Fault Refusal} {r : Fault} : o ≠ .fault r := nomatch r

end Sys2Proof.Machine
end

