-- ==== Sys2Proof/Laws/PerInstr.lean ====
section
/-!
SUPPORT. Statements about every instruction as it is written, one lemma per constructor.
-/

namespace Sys2Proof.Laws

/-- The encoding of a well-formed instruction obeys R71 to R74: `RSV` is zero, `OPC` is its row's code, the unused fields
are zero, and the payload has `LEN` bytes. -/
def EncodesByTable.Statement (i : Instr) : Prop :=
  i.wf = true →
    Desc.rsv (encode i).1 = 0 ∧ opOf? (Desc.opc (encode i).1) = some i.op ∧
      (i.op.usesSeed = false → Desc.seed (encode i).1 = 0) ∧ (i.op.usesLen = false → Desc.len (encode i).1 = 0) ∧
      (encode i).2.length = (Desc.len (encode i).1).toNat

theorem EncodesByTable.of_fields (i : Instr) (hs : i.op.usesSeed = false → Desc.seed (encode i).1 = 0)
    (hl : i.op.usesLen = false → Desc.len (encode i).1 = 0) : EncodesByTable.Statement i := fun h =>
  ⟨rsv_encode i, by rw [opc_encode, opOf_code], hs, hl, by rw [encode_payload, len_encode i h]⟩

theorem EncodesByTable.xinit (seed : Word) : EncodesByTable.Statement (.xinit seed) :=
  EncodesByTable.of_fields _ nofun fun _ => len_mkDesc _ _ _

theorem EncodesByTable.xreset : EncodesByTable.Statement .xreset :=
  EncodesByTable.of_fields _ (fun _ => seed_mkDesc _ _ _) fun _ => len_mkDesc _ _ _

theorem EncodesByTable.xwrite (payload : Payload) : EncodesByTable.Statement (.xwrite payload) :=
  EncodesByTable.of_fields _ (fun _ => seed_mkDesc _ _ _) nofun

theorem EncodesByTable.xdigest : EncodesByTable.Statement .xdigest :=
  EncodesByTable.of_fields _ (fun _ => seed_mkDesc _ _ _) fun _ => len_mkDesc _ _ _

theorem EncodesByTable.xsum (seed : Word) (payload : Payload) : EncodesByTable.Statement (.xsum seed payload) :=
  EncodesByTable.of_fields _ nofun nofun

theorem EncodesByTable.xinfo : EncodesByTable.Statement .xinfo :=
  EncodesByTable.of_fields _ (fun _ => seed_mkDesc _ _ _) fun _ => len_mkDesc _ _ _

end Sys2Proof.Laws
end

