-- ==== Sys2Proof/Laws/Run.lean ====
section
/-!
SUPPORT. Commands one after the other: a run splits where its commands do, and it depends on the registers and the cap
alone, its responses being appended to whatever was there.
-/

namespace Sys2Proof.Machine

/-- A run of two command sequences is a run of the first, then of the second. -/
theorem runInstrs_append (before after : List Instr) (s : State) :
    runInstrs (before ++ after) s =
      match runInstrs before s with
      | .next t => runInstrs after t
      | .fault r => .fault r
      | .refused r => .refused r := by
  induction before generalizing s with
  | nil => rfl
  | cons i before ih =>
    simp only [List.cons_append, runInstrs]
    rcases exec i s with t | r | r <;> simp [ih]

/-- A command's effect depends on the registers and the cap alone; its one response is appended. -/
theorem exec_congr {i : Instr} {s t s' : State} (hh : s'.hash = s.hash) (hc : s'.maxWriteBytes = s.maxWriteBytes)
    (h : exec i s = .next t) :
    ∃ t', exec i s' = .next t' ∧ t'.hash = t.hash ∧ t'.maxWriteBytes = t.maxWriteBytes ∧
      ∃ rw, t.responses = s.responses ++ [rw] ∧ t'.responses = s'.responses ++ [rw] := by
  cases i with
  | xinit seed => cases h; exact ⟨_, rfl, by simp, by simp [hc], responseWord .ok 0 0, by simp, by simp⟩
  | xreset => cases h; exact ⟨_, rfl, by simp [hh], by simp [hc], responseWord .ok 0 0, by simp, by simp⟩
  | xinfo => cases h; exact ⟨_, rfl, hh, hc, responseWord .ok infoValue s.maxWriteBytes, by simp, by simp [hc]⟩
  | xdigest =>
    simp only [exec] at h ⊢
    rcases hp : s.hash.phase with - | d
    · rw [execXdigest_streaming s hp] at h
      rw [execXdigest_streaming s' (by rw [hh]; exact hp)]
      cases h
      exact ⟨_, rfl, by simp [hh], by simp [hc], _, respond_responses _ _ _ _, by simp [hh]⟩
    · rw [execXdigest_finalized s d hp] at h
      rw [execXdigest_finalized s' d (by rw [hh]; exact hp)]
      cases h
      exact ⟨_, rfl, by simp [hh], by simp [hc], _, respond_responses _ _ _ _, by simp⟩
  | xsum seed P =>
    simp only [exec, execXsum, hc] at h ⊢
    split at h <;> rename_i e <;> simp only [e, if_true, if_false] <;> cases h
    · exact ⟨_, rfl, hh, hc, _, rfl, rfl⟩
    · exact ⟨_, rfl, hh, hc, _, rfl, rfl⟩
  | xwrite P =>
    simp only [exec, execXwrite, hh, hc] at h ⊢
    split at h
    · rename_i e; rw [if_pos e]; cases h; exact ⟨_, rfl, hh, hc, _, rfl, rfl⟩
    · rename_i e; rw [if_neg e]
      split at h
      · rename_i e; rw [if_pos e]; cases h; exact ⟨_, rfl, hh, hc, _, rfl, rfl⟩
      · rename_i e; rw [if_neg e]
        split at h
        · cases h
        · rename_i e; rw [if_neg e]; cases h
          exact ⟨_, rfl, by simp, by simp [hc], _, respond_responses _ _ _ _, by simp⟩

/-- The same of a run. -/
theorem runInstrs_congr {is : List Instr} {s t s' : State} (hh : s'.hash = s.hash)
    (hc : s'.maxWriteBytes = s.maxWriteBytes) (h : runInstrs is s = .next t) :
    ∃ t', runInstrs is s' = .next t' ∧ t'.hash = t.hash ∧
      ∃ rs, rs.length = is.length ∧ t.responses = s.responses ++ rs ∧ t'.responses = s'.responses ++ rs := by
  induction is generalizing s s' with
  | nil => cases h; exact ⟨_, rfl, hh, [], rfl, by simp, by simp⟩
  | cons i is ih =>
    simp only [runInstrs] at h
    rcases he : exec i s with u | r | r <;> rw [he] at h
    · obtain ⟨u', h1, h2, h3, rw_, h4, h5⟩ := exec_congr hh hc he
      obtain ⟨t', g1, g2, rs, g3, g4, g5⟩ := ih h2 h3 h
      exact ⟨t', by simp only [runInstrs, h1]; exact g1, g2, rw_ :: rs, by simp [g3], by simp [g4, h4], by simp [g5, h5]⟩
    · cases h
    · cases h

end Sys2Proof.Machine
end

