-- ==== Sys2Proof/Laws/Step.lean ====
section
/-!
SUPPORT. What one step can do, said once.
-/

namespace Sys2Proof.Machine

@[simp] theorem takeEvent_nil (s : State) (h : s.inbox = []) : takeEvent s = none := by simp [takeEvent, h]

@[simp] theorem takeEvent_cons (s : State) (e : HostEvent) (rest : List HostEvent) (h : s.inbox = e :: rest) :
    takeEvent s = some (e, s.setInbox rest) := by simp [takeEvent, h]

/-- A step that answers a next state: idle, a reset, an illegal command, or a legal command run on the state with the
move taken (R31, R173, R191, R163, R75). -/
theorem step_next_cases {s t : State} (h : step s = .next t) :
    (s.inbox = [] ∧ t = s) ∨
    (∃ e rest, s.inbox = e :: rest ∧ (e = .reset ∨ ∃ cw P, e = .resetDuring cw P) ∧
      t = hardwareReset (s.setInbox rest)) ∨
    (∃ cw P rest why, s.inbox = .command cw P :: rest ∧ decode cw P = .error why ∧
      t = (s.setInbox rest).respond .illegalCommand 0 0) ∨
    (∃ cw P rest i, s.inbox = .command cw P :: rest ∧ decode cw P = .ok i ∧ exec i (s.setInbox rest) = .next t) := by
  unfold step at h
  rcases hin : s.inbox with - | ⟨e, rest⟩
  · rw [takeEvent_nil s hin] at h; cases h; exact .inl ⟨rfl, rfl⟩
  · rw [takeEvent_cons s e rest hin] at h
    cases e with
    | reset => cases h; exact .inr (.inl ⟨_, rest, rfl, .inl rfl, rfl⟩)
    | resetDuring cw P => cases h; exact .inr (.inl ⟨_, rest, rfl, .inr ⟨cw, P, rfl⟩, rfl⟩)
    | command cw P =>
      rcases hd : decode cw P with why | i
      · simp only [hd] at h; cases h
        exact .inr (.inr (.inl ⟨cw, P, rest, why, rfl, hd, rfl⟩))
      · simp only [hd] at h
        exact .inr (.inr (.inr ⟨cw, P, rest, i, rfl, hd, h⟩))

end Sys2Proof.Machine
end

