-- ==== Sys2Proof/Tests/Slice0.lean ====
section
/-!
SUPPORT. Tests. Expected values are the spec's: spec/95_test_vectors.md (sections 1, 3, 5 and programs P1 to P4 of section
7) and the examples of the rules. The last part shows, for each statement with hypotheses, inputs that meet them.
-/

namespace Sys2Proof.Tests

open Sys2Proof Sys2Proof.Machine

/-! ### Well-formedness: each check refuses an ill-formed term -/

/-- A payload whose length does not fit `LEN`; for every such length, so that nothing is computed of it. -/
theorem fits_replicate (n : Nat) (h : 2 ^ 64 ≤ n) : Payload.fits (List.replicate n 0) = false := by
  rw [Payload.fits, List.length_replicate]
  exact decide_eq_false (Nat.not_lt.2 h)

theorem test_wf_xwrite_too_long : Instr.wf (.xwrite (List.replicate (2 ^ 64) 0)) = false :=
  fits_replicate (2 ^ 64) (Nat.le_refl _)

theorem test_wf_xsum_too_long : Instr.wf (.xsum 0 (List.replicate (2 ^ 64) 0)) = false :=
  fits_replicate (2 ^ 64) (Nat.le_refl _)

theorem test_wf_accepts : Instr.wf (.xsum 1 [0x74]) = true ∧ Instr.wf (.xwrite []) = true ∧ Instr.wf .xreset = true := by
  decide

/-! ### Decoding: words written out from R71 to R73 -/

/-- `OPC ++ RSV ++ SEED ++ LEN`, field by field. -/
theorem test_decode_fields :
    decode (0x01#8 ++ 0#24 ++ 0x9E3779B1#32 ++ 0#64) [] = .ok (.xinit 0x9E3779B1) ∧
    decode (0x05#8 ++ 0#24 ++ 0x80000001#32 ++ 2#64) [0x01, 0xFF] = .ok (.xsum 0x80000001 [0x01, 0xFF]) := by decide

/-- One word of each row of the table. -/
theorem test_decode_rows :
    decode 0x01000000000000070000000000000000 [] = .ok (.xinit 7) ∧
    decode 0x02000000000000000000000000000000 [] = .ok .xreset ∧
    decode 0x03000000000000000000000000000001 [0x05] = .ok (.xwrite [0x05]) ∧
    decode 0x04000000000000000000000000000000 [] = .ok .xdigest ∧
    decode 0x05000000000000000000000000000004 [0x74, 0x65, 0x73, 0x74] = .ok (.xsum 0 [0x74, 0x65, 0x73, 0x74]) ∧
    decode 0x06000000000000000000000000000000 [] = .ok .xinfo := by decide

/-- Each kind of illegal command (P3 steps 10 to 15, and the highest opcode). -/
theorem test_decode_illegal :
    decode 0x07000000000000000000000000000000 [] = .error .unknownOpcode ∧
    decode 0x04000000000000000000000000000001 [0x00] = .error .unusedLenNotZero ∧
    decode 0x04000000000000050000000000000000 [] = .error .unusedSeedNotZero ∧
    decode 0x03000000000000000000000000000003 [0x61, 0x62] = .error .payloadLengthNotLen ∧
    decode 0x01000001000000000000000000000000 [] = .error .reservedNotZero ∧
    decode 0x00000000000000000000000000000000 [] = .error .unknownOpcode ∧
    decode 0xFF000000000000000000000000000000 [] = .error .unknownOpcode := by decide

/-- The descriptors of P4 step 3, P1 step 7 and P4 step 7. -/
theorem test_encode_words :
    (encode (.xinit 0xFFFFFFFF)).1 = 0x01000000FFFFFFFF0000000000000000 ∧
    (encode (.xwrite [0x78])).1 = 0x03000000000000000000000000000001 ∧
    (encode (.xsum 0xFFFFFFFF (List.replicate 33 0xFF))).1 = 0x05000000FFFFFFFF0000000000000021 := by decide

/-- The table's numbering: `XWRITE` with `LEN = 2` and no bit above the descriptor carries two zero bytes (log 8). -/
theorem test_table_word :
    decodeTableWord 128 0x03000000000000000000000000000002 = some (.xwrite [0, 0]) ∧
    decodeTableWord 128 0x07000000000000000000000000000000 = none := by decide

/-! ### The mixing primitives (spec/95_test_vectors.md section 3) -/

theorem test_rotl32 :
    rotl32 0x80000001 1 = 0x00000003 ∧ rotl32 0x9E3779B1 7 = 0x1BBCD8CF ∧ rotl32 0xDEADBEEF 12 = 0xDBEEFDEA := by decide

theorem test_laneRound :
    laneRound 0xFFFFFFFF 0xFFFFFFFF = 0xD3CFBEA2 ∧ laneRound 0x12345678 0x9ABCDEF0 = 0x940B3397 := by decide

/-- `0x80000000` tells a logical from an arithmetic shift. -/
theorem test_avalanche : avalanche 0x80000000 = 0x22CC2014 ∧ avalanche 0x165667B1 = 0x02CC5D05 := by decide

theorem test_merge : merge ⟨0x12345678, 0x9ABCDEF0, 0x0FEDCBA9, 0x87654321⟩ = 0x6C18D3D0 := by decide

theorem test_tailword : tailword 0x165667B5 0x74736574 = 0x108CA7DC := by decide

/-- `0xFF` tells a zero-extended from a sign-extended byte (R109). -/
theorem test_tailbyte : tailbyte 0x165667B2 0xFF = 0x9E9300C3 := by decide

theorem test_fold :
    fold ⟨0x24234428, 0x85EBCA77, 0x00000000, 0x61C8864F⟩
      ((List.range 16).map (BitVec.ofNat 8)) =
    ⟨0xF817BCCB, 0x0222719B, 0xD4B0C0A4, 0xDEBB7574⟩ := by decide

/-- R140's example with 21 bytes: the lanes, a word and a byte. -/
theorem test_finalize :
    finalize 0 21 ⟨0xF817BCCB, 0x0222719B, 0xD4B0C0A4, 0xDEBB7574⟩ [0x10, 0x11, 0x12, 0x13, 0x14] = 0xC6BAB491 := by
  decide

/-! ### Commands, one step each -/

/-- The next state, if there is one. -/
def nextState? : Host.Outcome State Fault Refusal → Option State
  | .next t => some t
  | .fault _ => none
  | .refused _ => none

/-- The HashState after, if there is a next state. -/
def hashAfter (o : Host.Outcome State Fault Refusal) : Option HashState := (nextState? o).map (·.hash)

/-- The responses after, if there is a next state. -/
def responsesAfter (o : Host.Outcome State Fault Refusal) : Option (List Desc) := (nextState? o).map (·.responses)

/-- A state with these registers, the cap and the host's moves given, and no response yet. -/
def machine (h : HashState) (cap : Len) (moves : List HostEvent) : State :=
  { hash := h, maxWriteBytes := cap, inbox := moves, responses := [] }

/-- P1 after step 4: `"test"` written, nothing folded. -/
def p1 : HashState := { initState 0 with totalLen := 4, buf := [0x74, 0x65, 0x73, 0x74] }

/-- P1 after step 5. -/
def p1Done : HashState := { p1 with phase := .finalized 0x3E2023CF }

/-- P2 after step 4. -/
def p2 : HashState :=
  { seed := 0
    lane := ⟨0x719A836E, 0x514C1DE8, 0x97FA4BA2, 0x242A97A2⟩
    totalLen := 39
    buf := [0x65, 0x74, 0x69, 0x74, 0x69, 0x6F, 0x6E]
    phase := .streaming }

/-- P4 after step 4. -/
def p4 : HashState :=
  { seed := 0xFFFFFFFF
    lane := ⟨0x674641E6, 0x61C8864F, 0xD3CFBEA2, 0xCE52030B⟩
    totalLen := 17
    buf := [0xFF]
    phase := .streaming }

/-- P4 step 3: `XINIT` in phase Finalized, with lanes that wrap. -/
theorem test_xinit :
    hashAfter (exec (.xinit 0xFFFFFFFF) (machine p1Done 4 [])) =
      some
        { seed := 0xFFFFFFFF
          lane := ⟨0x24234427, 0x85EBCA76, 0xFFFFFFFF, 0x61C8864E⟩
          totalLen := 0
          buf := []
          phase := .streaming } := by decide

/-- The example of R121. -/
theorem test_xreset :
    hashAfter (exec .xreset (machine { p1Done with seed := 7 } 4 [])) =
      some
        { seed := 7
          lane := ⟨0x2423442F, 0x85EBCA7E, 0x00000007, 0x61C88656⟩
          totalLen := 0
          buf := []
          phase := .streaming } := by decide

/-- P4 step 5: 15 of 16 bytes complete the pending block, one is kept. -/
theorem test_xwrite_completes_block :
    hashAfter (exec (.xwrite (List.replicate 16 0xFF)) (machine p4 0x40000000 [])) =
      some
        { seed := 0xFFFFFFFF
          lane := ⟨0xC5F8ACBB, 0xBD88230B, 0x489BF6FC, 0x402B6D4C⟩
          totalLen := 33
          buf := [0xFF]
          phase := .streaming } := by decide

/-- P3 step 6 with the buffer of P1: one byte appended to four pending ones (`90_conflicts.md` C5). -/
theorem test_xwrite_appends :
    hashAfter (exec (.xwrite [0x05]) (machine p1 4 [])) =
      some { p1 with totalLen := 5, buf := [0x74, 0x65, 0x73, 0x74, 0x05] } := by decide

/-- P2 step 5. -/
theorem test_xdigest :
    responsesAfter (exec .xdigest (machine p2 4 [])) = some [0x00000000E2293B2F0000000000000000] ∧
    hashAfter (exec .xdigest (machine p2 4 [])) = some { p2 with phase := .finalized 0xE2293B2F } := by decide

/-- P1 step 6, the cached digest, here one that no recomputation gives. -/
theorem test_xdigest_cached :
    responsesAfter (exec .xdigest (machine { p1Done with phase := .finalized 5 } 4 [])) =
      some [0x00000000000000050000000000000000] := by decide

/-- `"0123456789abcdefg"`, seed 1 (section 5): one block and one byte. -/
theorem test_xsum :
    responsesAfter
      (exec (.xsum 1 ("0123456789abcdefg".toList.map fun c => BitVec.ofNat 8 c.toNat)) (machine p1Done 0x40000000 [])) =
    some [0x000000000FFC40B60000000000000000] := by decide

/-- P3 step 4: one byte over the cap. -/
theorem test_xsum_over_cap :
    responsesAfter (exec (.xsum 0 [0xAA, 0xBB, 0xCC, 0xDD, 0xEE]) (machine p1 4 [])) =
      some [0x02000000000000000000000000000000] := by decide

/-- P3 step 7. -/
theorem test_xinfo :
    responsesAfter (exec .xinfo (machine p1 4 [])) = some [0x00000000000010040000000000000004] := by decide

/-- P3 step 9: an over-long write after the digest is `InvalidState` (R164). -/
theorem test_step_priority :
    responsesAfter
      (step (machine p1Done 4 [.command 0x03000000000000000000000000000005 [0x05, 0x06, 0x07, 0x08, 0x09]])) =
      some [0x01000000000000000000000000000000] := by decide

/-- P3 step 14. -/
theorem test_step_illegal :
    nextState? (step (machine p1 4 [.command 0x01000001000000000000000000000000 []])) =
      some { machine p1 4 [] with responses := [0x03000000000000000000000000000000] } := by decide

/-- P3 step 1 as the host's numbering of the command, from reset. -/
theorem test_step_withFetchWord :
    hashAfter (step (State.reset.withFetchWord 128 0x01000000000000070000000000000000)) =
      some (initState 7) := by decide

/-- A reset that abandons an `XWRITE` keeps none of its writes and answers nothing (R191). -/
theorem test_step_reset_abandons :
    nextState? (step (machine p2 4 [.resetDuring 0x03000000000000000000000000000001 [0x78]])) =
      some (machine (initState 0) 4 []) := by decide

/-! ### The notation (R80, R81) -/

theorem test_read_xsum :
    readInstr ("XSUM 0, " ++ "\"test\"").toList = some (.xsum 0 [0x74, 0x65, 0x73, 0x74]) := by decide

theorem test_read_xinit : readInstr "XINIT   0x9e3779B1".toList = some (.xinit 0x9E3779B1) := by decide

theorem test_read_xwrite : readInstr "XWRITE [74 65]".toList = some (.xwrite [0x74, 0x65]) := by decide

theorem test_show_response :
    showResponse 0x00000000000010040000000040000000 = some "-> OK, VALUE=0x00001004, COUNT=1073741824".toList := by
  decide

theorem test_pseudo :
    Pseudo.expand (.reset (some 3)) = .xinit 3 ∧ Pseudo.expand (.reset none) = .xreset ∧
    Pseudo.expand (.checksum32 [1] none) = .xsum 0 [1] := by decide

/-! ### Inputs that meet the hypotheses of the statements

One theorem for each statement with hypotheses, named after it; a statement with several clauses has one part for each, at a
boundary of the clause. -/

/-- The registers after reset, in phase Streaming. -/
def fresh : HashState := initState 0

theorem test_meets_DecodeEncodeRoundTrip : Instr.wf (.xsum 0xFFFFFFFF [0x74]) = true := by decide

theorem test_meets_EncodeDecodeRoundTrip :
    decode 0x03000000000000000000000000000001 [0x78] = .ok (.xwrite [0x78]) := by decide

theorem test_meets_DecodeAgreesWithTable :
    decode 0x03000000000000000000000000000001 [0x78] = .ok (.xwrite [0x78]) ∧
    (∃ row ∈ opcodeTable, 0x03000000000000000000000000000001 &&& row.mask = row.matchBits ∧
      [0x78#8].length = (Desc.len 0x03000000000000000000000000000001).toNat) := by decide

theorem test_meets_StepRunsDecodedInstruction :
    (machine fresh 4 [commandOf .xinfo, .reset]).inbox = .command 0x06000000000000000000000000000000 [] :: [.reset] ∧
    decode 0x06000000000000000000000000000000 [] = .ok .xinfo := by decide

theorem test_meets_PresentedInstructionRuns : Instr.wf (.xwrite []) = true := by decide

/-- The five ways to be illegal, each on its own, at a boundary. -/
theorem test_meets_IllegalCommandAnswersAndChangesNothing :
    (machine fresh 4 [.command 0x07000000000000000000000000000000 []]).inbox =
      [.command 0x07000000000000000000000000000000 []] ∧
    Desc.rsv 0x01800000000000000000000000000000 ≠ 0 ∧
    ¬ (1 ≤ (Desc.opc 0x00000000000000000000000000000000).toNat) ∧
    ¬ ((Desc.opc 0x07000000000000000000000000000000).toNat ≤ 6) ∧
    (Desc.opc 0x04000000800000000000000000000000 ≠ 1 ∧ Desc.opc 0x04000000800000000000000000000000 ≠ 5 ∧
      Desc.seed 0x04000000800000000000000000000000 ≠ 0) ∧
    (Desc.opc 0x06000000000000008000000000000000 ≠ 3 ∧ Desc.opc 0x06000000000000008000000000000000 ≠ 5 ∧
      Desc.len 0x06000000000000008000000000000000 ≠ 0) ∧
    [0x61#8].length ≠ (Desc.len 0x03000000000000000000000000000002).toNat := by decide

theorem test_meets_IdleStepKeepsState : (machine p2 4 []).inbox = [] := by decide

theorem test_meets_RotateMovesEachBit : 0 < 31 ∧ 31 < 32 ∧ 31 < 32 := by decide

/-- The steps of `avalanche(0x165667B1)` as R106 lists them. -/
theorem test_meets_AvalancheInNaturals :
    0x16564B1D = (0x165667B1#32).toNat ^^^ ((0x165667B1#32).toNat / 2 ^ 15) ∧
    0x7E00CC7B = 0x16564B1D * 2246822519 % 2 ^ 32 ∧ 0x7E033C7D = 0x7E00CC7B ^^^ (0x7E00CC7B / 2 ^ 13) ∧
    0x02CC5FC9 = 0x7E033C7D * 3266489917 % 2 ^ 32 := by decide

theorem test_meets_WordReadIsLittleEndian :
    1 + 4 ≤ [0x01#8, 0x74, 0x65, 0x73, 0x74].length ∧ 4 + 1 ≤ [0x01#8, 0x74, 0x65, 0x73, 0x74].length := by decide

theorem test_meets_BufferWriteSetsItsCellsOnly :
    15 ≤ (List.replicate 15 0xFF#8).length ∧ 15 + [0x01#8].length ≤ 16 ∧ 0 < [0x01#8].length ∧ 14 < 15 := by decide

theorem test_meets_FoldLanesAreIndependent :
    (Lanes.mk 1 2 3 4).get 3 = (Lanes.mk 5 6 7 4).get 3 ∧
    ∀ j, j < 4 → (List.replicate 16 0#8)[4 * (3 : Fin 4).val + j]? =
      (List.replicate 12 1#8 ++ List.replicate 4 0#8)[4 * (3 : Fin 4).val + j]? := by decide

theorem test_meets_InitialisationForgetsTheSession :
    ∃ t, runInstrs [.xwrite [0x78], .xdigest] (machine p1 4 []) = .next t := ⟨_, rfl⟩

theorem test_meets_HardwareResetFromAnyState :
    (machine p1Done 4 [.reset, .reset]).inbox = .reset :: [.reset] ∧
    (machine p1Done 4 [.resetDuring 0 []]).inbox = .resetDuring 0 [] :: [] := by decide

/-- At the cap, and one byte below the length that the spec gives no meaning. -/
theorem test_meets_XwriteResult :
    let s := machine { fresh with totalLen := 0xFFFFFFFFFFFFFFFB, buf := List.replicate 15 0 } 4 []
    s.hash.phase = .streaming ∧ s.hash.buf.length < 16 ∧ [1#8, 2, 3, 4].length ≤ s.maxWriteBytes.toNat ∧
      s.hash.totalLen.toNat + [1#8, 2, 3, 4].length < 2 ^ 64 := by decide

/-- Each clause: 15 bytes in all, 16 in all, a block on an empty buffer, an empty payload. -/
theorem test_meets_XwriteCornerCases :
    let s := machine { fresh with totalLen := 12, buf := List.replicate 12 0 } 16 []
    (s.hash.phase = .streaming ∧ s.hash.buf.length < 16 ∧ s.hash.totalLen.toNat + 16 < 2 ^ 64) ∧
    s.hash.buf.length + [1#8, 2, 3].length < 16 ∧ s.hash.buf.length + [1#8, 2, 3, 4].length = 16 ∧
    (machine fresh 16 []).hash.buf = [] ∧ (List.replicate 16 0#8).length % 16 = 0 ∧
    (List.replicate 16 0#8).length ≤ s.maxWriteBytes.toNat ∧ ([] : Payload).length ≤ s.maxWriteBytes.toNat := by decide

theorem test_meets_XwriteAfterDigestIsInvalidState :
    (machine p1Done 4 []).hash.phase = .finalized 0x3E2023CF ∧ (machine p1 4 []).hash.phase = .streaming ∧
    isInit .xreset = true ∧ isInit (.xinit 1) = true ∧ ([] : Payload).length ≤ (machine p1Done 0 []).maxWriteBytes.toNat := by
  decide

/-- One byte over the cap, in phase Streaming, and the unbounded cap. -/
theorem test_meets_OverLongCommandIsLengthLimitExceeded :
    (machine fresh 0 []).maxWriteBytes.toNat < [0x78#8].length ∧ (machine fresh 0 []).hash.phase = .streaming ∧
    (machine fresh 0xFFFFFFFFFFFFFFFF []).maxWriteBytes = 0xFFFFFFFFFFFFFFFF ∧ Instr.wf (.xwrite [0x78]) = true := by
  decide

/-- Each status occurs: OK, `InvalidState`, `LengthLimitExceeded` of both commands, `IllegalCommand`. -/
theorem test_meets_StatusExactly :
    responsesAfter (step (machine fresh 0 [commandOf .xreset])) = some [0] ∧
    responsesAfter (step (machine p1Done 0 [commandOf (.xwrite [])])) = some [0x01000000000000000000000000000000] ∧
    responsesAfter (step (machine fresh 0 [commandOf (.xwrite [1])])) = some [0x02000000000000000000000000000000] ∧
    responsesAfter (step (machine fresh 0 [commandOf (.xsum 1 [1])])) = some [0x02000000000000000000000000000000] ∧
    responsesAfter (step (machine fresh 0 [.command 0 []])) = some [0x03000000000000000000000000000000] := by decide

/-- The write that reaches `2^64` exactly is refused. -/
theorem test_meets_RefusedExactlyOnLengthOverflow :
    let s := machine { fresh with totalLen := 0xFFFFFFFFFFFFFFFF } 4 []
    s.hash.phase = .streaming ∧ [1#8].length ≤ s.maxWriteBytes.toNat ∧ 2 ^ 64 ≤ s.hash.totalLen.toNat + [1#8].length := by
  decide

theorem test_meets_FailedOrEmptyWriteIsInvisible :
    (p1Done.phase ≠ .streaming ∧ ∃ t, runInstrs [.xwrite [1], .xdigest] (machine p1Done 4 []) = .next t) ∧
    ((machine p1 0 []).maxWriteBytes.toNat < [1#8].length ∧
      ∃ t, runInstrs [.xwrite [1], .xdigest] (machine p1 0 []) = .next t) ∧
    (p1.buf.length < 16 ∧ ∃ t, runInstrs [.xwrite [], .xdigest] (machine p1 4 []) = .next t) :=
  ⟨⟨by decide, _, rfl⟩, ⟨by decide, _, rfl⟩, ⟨by decide, _, rfl⟩⟩

/-- Chunks that split mid-block, and an empty one. -/
theorem test_meets_ChunkingInvariance :
    let s := machine p4 17 []
    let chunks : List Payload := [[1], [], List.replicate 15 2, [3]]
    s.hash.phase = .streaming ∧ s.hash.buf.length < 16 ∧ (∀ b ∈ chunks, b.length ≤ s.maxWriteBytes.toNat) ∧
      chunks.flatten.length ≤ s.maxWriteBytes.toNat ∧ s.hash.totalLen.toNat + chunks.flatten.length < 2 ^ 64 := by decide

theorem test_meets_XdigestResult :
    (machine p2 4 []).hash.phase = .streaming ∧ (machine p1Done 4 []).hash.phase = .finalized 0x3E2023CF := by decide

theorem test_meets_FinalizeClosedForm : (List.replicate 15 0xFF#8).length ≤ 15 := by decide

theorem test_meets_DigestUsesLowLengthBits :
    16 ≤ (16#64).toNat ∧ 16 ≤ (0x100000010#64).toNat ∧ (16#64).toNat % 2 ^ 32 = (0x100000010#64).toNat % 2 ^ 32 := by
  decide

theorem test_meets_XdigestIsIdempotent :
    (∃ t, exec .xdigest (machine p2 4 []) = .next t) ∧
    ∀ i ∈ [Instr.xwrite [1], .xsum 0 [1, 2, 3, 4, 5], .xinfo, .xdigest], isInit i = false := ⟨⟨_, rfl⟩, by decide⟩

theorem test_meets_EmptyDigestSeparatesSeeds :
    ∃ t u, exec (.xsum 7 []) (machine p1 0 []) = .next t ∧ exec (.xsum 7 []) (machine p1 0 []) = .next u ∧
      t.responses = u.responses := ⟨_, _, rfl, rfl, rfl⟩

theorem test_meets_XsumResult : (List.replicate 16 0#8).length ≤ (machine p1Done 16 []).maxWriteBytes.toNat := by decide

theorem test_meets_XsumEqualsStreamingPath :
    let chunks : List Payload := [[0x74, 0x65], [], [0x73, 0x74]]
    let s := machine p1Done 4 (commandOf (.xinit 1) :: (chunks.map (fun b => commandOf (.xwrite b)) ++ [commandOf .xdigest]))
    (∀ b ∈ chunks, b.length ≤ s.maxWriteBytes.toNat) ∧ chunks.flatten.length < 2 ^ 64 ∧
      s.inbox = commandOf (.xinit 1) :: (chunks.map (fun b => commandOf (.xwrite b)) ++ commandOf .xdigest :: []) ∧
      chunks.flatten.length ≤ s.maxWriteBytes.toNat := by decide

theorem test_meets_RemovingOneShotChangesNothingElse :
    isAside .xinfo = true ∧ isAside (.xsum 0 []) = true ∧
    ∃ t, runInstrs ([.xwrite [1]] ++ .xsum 0 [] :: [.xdigest]) (machine p1 4 []) = .next t := ⟨rfl, rfl, _, rfl⟩

theorem test_meets_OneResponsePerCommand :
    (∃ t, step (machine p1 4 [commandOf .xinfo, .reset]) = .next t) ∧
    decode (encode .xinfo).1 (encode .xinfo).2 = .ok .xinfo ∧ Instr.op .xinfo ≠ .xwrite ∧ Instr.op .xinfo ≠ .xsum :=
  ⟨⟨_, rfl⟩, by decide⟩

theorem test_meets_ResponseValuesComplete : ∃ t, step (machine p1 4 [commandOf (.xwrite [1])]) = .next t := ⟨_, rfl⟩

theorem test_meets_ErrorChangesNoRegister :
    responsesAfter (step (machine p1Done 4 [commandOf (.xwrite [])])) = some ([] ++ [0x01000000000000000000000000000000]) ∧
    rwStatus 0x01000000000000000000000000000000 ≠ 0x00 := by decide

/-- Two states that agree in nothing but the phase, the cap and the responses. -/
theorem test_meets_ResponsesRevealNoRegister :
    (machine p1 4 []).maxWriteBytes = (machine p4 4 []).maxWriteBytes ∧
    (machine p1 4 []).responses = (machine p4 4 []).responses ∧ Instr.xwrite [1] ≠ .xdigest ∧
    p1.phase.isStreaming = p4.phase.isStreaming ∧
    (∃ t, exec (.xwrite [1]) (machine p1 4 []) = .next t) ∧ ∃ t, exec (.xwrite [1]) (machine p4 4 []) = .next t :=
  ⟨rfl, rfl, nofun, rfl, ⟨_, rfl⟩, _, rfl⟩

theorem test_meets_StepKeepsInvariants :
    (machine fresh 4 [commandOf (.xwrite [1])]).wf = true ∧
    ∃ t, step (machine fresh 4 [commandOf (.xwrite [1])]) = .next t := ⟨by decide, _, rfl⟩

theorem test_meets_StepKeepsSession :
    IsSession p1 ∧ ∃ t, step (machine p1 4 [commandOf .xdigest]) = .next t :=
  ⟨⟨[0x74, 0x65, 0x73, 0x74], by decide, .inl (by decide)⟩, _, rfl⟩

theorem test_meets_SessionHasInvariants : IsSession p1Done :=
  ⟨[0x74, 0x65, 0x73, 0x74], by decide, .inr (by decide)⟩

/-- Each move of the host answers a next state: none, a reset, an abandoned command, an illegal one, `XDIGEST` in either
phase, `XWRITE`. -/
theorem test_meets_PhaseTransitions :
    nextState? (step (machine p1 4 [])) ≠ none ∧ nextState? (step (machine p1 4 [.reset])) ≠ none ∧
    nextState? (step (machine p1 4 [.resetDuring 0 []])) ≠ none ∧ nextState? (step (machine p1 4 [.command 0 []])) ≠ none ∧
    nextState? (step (machine p1 4 [commandOf .xdigest])) ≠ none ∧
    nextState? (step (machine p1Done 4 [commandOf .xdigest])) ≠ none ∧
    nextState? (step (machine p1 4 [commandOf (.xwrite [1])])) ≠ none := by decide

theorem test_meets_FinalizedRegistersAreFrozen :
    p1Done.phase = .finalized 0x3E2023CF ∧
    ∃ t, step (machine p1Done 4 [commandOf .xreset]) = .next t ∧ t.hash ≠ p1Done := ⟨rfl, _, rfl, by decide⟩

theorem test_meets_SeedIsWrittenOnlyByXinitAndReset :
    (∃ t, step (machine p1 4 [commandOf (.xinit 1)]) = .next t ∧ t.hash.seed ≠ p1.seed) ∧
    ∃ t, step (machine p4 4 [.reset]) = .next t ∧ t.hash.seed ≠ p4.seed := ⟨⟨_, rfl, by decide⟩, _, rfl, by decide⟩

/-- The moves that may change `TOTAL_LEN`, and an `XWRITE` over the cap, which may not. -/
theorem test_meets_TotalLenIsCountedOnlyByXwrite :
    hashAfter (step (machine p1 4 [commandOf (.xwrite [1])])) = some { p1 with totalLen := 5, buf := p1.buf ++ [1] } ∧
    hashAfter (step (machine p1 0 [commandOf (.xwrite [1])])) = some p1 ∧
    hashAfter (step (machine p1 4 [commandOf .xreset])) = some fresh ∧
    hashAfter (step (machine p4 4 [.resetDuring 0 []])) = some fresh := by decide

theorem test_meets_AccessMatrixFrames :
    (∃ t, exec .xreset (machine p2 4 []) = .next t) ∧ (∃ t, exec .xdigest (machine p2 4 []) = .next t) ∧
    (∃ t, exec (.xwrite [1]) (machine p2 4 []) = .next t) ∧ ∃ t, exec (.xsum 0 [1]) (machine p2 4 []) = .next t :=
  ⟨⟨_, rfl⟩, ⟨_, rfl⟩, ⟨_, rfl⟩, _, rfl⟩

theorem test_meets_CapNeverChanges : ∃ t, step (machine p1 4 [commandOf (.xinit 1)]) = .next t := ⟨_, rfl⟩

end Sys2Proof.Tests
end

