-- ==== Sys2Proof/Proofs/Scope.lean ====
section
/-!
SUPPORT. The block's scope (spec/00_scope.md): when a command is refused (R13), and what a response can show of the
registers (R3).
-/

namespace Sys2Proof.Machine

theorem exec_xwrite (P : Payload) (s : State) : exec (.xwrite P) s = execXwrite P s := rfl

theorem exec_xsum (seed : Word) (P : Payload) (s : State) : exec (.xsum seed P) s = execXsum seed P s := rfl

theorem exec_xdigest (s : State) : exec .xdigest s = execXdigest s := rfl

/-! ### The refusal (R13, R130, R170) -/

/-- Of the four ways `XWRITE` can end, one is a refusal, and the conditions of the four exclude each other. -/
theorem execXwrite_eq_refused_iff (P : Payload) (s : State) (r : Refusal) :
    execXwrite P s = .refused r ↔
      r = .totalLenOverflow ∧ s.hash.phase = .streaming ∧ P.length ≤ s.maxWriteBytes.toNat ∧
        2 ^ 64 ≤ s.hash.totalLen.toNat + P.length := by
  rcases execXwrite_cases P s with ⟨hp, e⟩ | ⟨-, hl, e⟩ | ⟨hp, hl, ho, e⟩ | ⟨-, -, ho, e⟩ <;> rw [e]
  · refine ⟨nofun, fun ⟨_, hs, _⟩ => ?_⟩
    rw [hs] at hp; cases hp
  · exact ⟨nofun, fun ⟨_, _, hle, _⟩ => absurd hl (Nat.not_lt.mpr hle)⟩
  · refine ⟨fun h => ?_, fun ⟨hr, _⟩ => hr ▸ rfl⟩
    cases h; exact ⟨rfl, hp, hl, ho⟩
  · exact ⟨nofun, fun ⟨_, _, _, hge⟩ => absurd ho (Nat.not_lt.mpr hge)⟩

/-- Every command but `XWRITE` answers from every state. -/
theorem exec_answers_of_ne_xwrite {i : Instr} (s : State) (hi : ∀ P, i ≠ .xwrite P) : ∃ t, exec i s = .next t := by
  cases i with
  | xinit seed => exact ⟨_, rfl⟩
  | xreset => exact ⟨_, rfl⟩
  | xwrite P => exact absurd rfl (hi P)
  | xdigest =>
    rw [exec_xdigest]
    rcases hp : s.hash.phase with - | d
    · exact ⟨_, execXdigest_streaming s hp⟩
    · exact ⟨_, execXdigest_finalized s d hp⟩
  | xsum seed P =>
    rw [exec_xsum]
    rcases execXsum_cases seed P s with ⟨-, e⟩ | ⟨-, e⟩
    · exact ⟨_, e⟩
    · exact ⟨_, e⟩
  | xinfo => exact ⟨_, rfl⟩

/-- Only `XWRITE` can be refused. -/
theorem xwrite_of_exec_refused {i : Instr} {s : State} {r : Refusal} (h : exec i s = .refused r) :
    ∃ P, i = .xwrite P := by
  by_contra hi
  obtain ⟨t, ht⟩ := exec_answers_of_ne_xwrite s (not_exists.mp hi)
  rw [ht] at h; cases h

/-- Settles O32: only `XWRITE` can be refused, and it is refused by its last check alone. -/
theorem refusedExactlyOnLengthOverflow : Obligations.RefusedExactlyOnLengthOverflow := by
  intro i s r
  constructor
  · intro h
    obtain ⟨P, rfl⟩ := xwrite_of_exec_refused h
    rw [exec_xwrite, execXwrite_eq_refused_iff] at h
    obtain ⟨hr, hw⟩ := h
    exact ⟨hr, P, rfl, hw⟩
  · rintro ⟨hr, P, rfl, hw⟩
    rw [exec_xwrite, execXwrite_eq_refused_iff]
    exact ⟨hr, hw⟩

/-! ### What a response shows (R3, R34) -/

/-- The response of an `XWRITE` that answers, from the phase's tag, the cap and the payload alone (R133, R161, R162). -/
def xwriteResponse (streaming : Bool) (cap : Len) (P : Payload) : Desc :=
  if streaming = false then responseWord .invalidState 0 0
  else if cap.toNat < P.length then responseWord .lengthLimitExceeded 0 0
  else responseWord .ok 0 (BitVec.ofNat 64 P.length)

/-- The response of an `XSUM`, from the cap and the command's own operands alone (R150, R162). -/
def xsumResponse (cap : Len) (seed : Word) (P : Payload) : Desc :=
  if cap.toNat < P.length then responseWord .lengthLimitExceeded 0 0
  else responseWord .ok (digestOf (absorb (initState seed) P)) 0

theorem execXwrite_responses {P : Payload} {s t : State} (h : execXwrite P s = .next t) :
    t.responses = s.responses ++ [xwriteResponse s.hash.phase.isStreaming s.maxWriteBytes P] := by
  unfold xwriteResponse
  rcases execXwrite_cases P s with ⟨hp, e⟩ | ⟨hp, hl, e⟩ | ⟨-, -, -, e⟩ | ⟨hp, hl, -, e⟩ <;> rw [e] at h <;> cases h
  · rw [if_pos hp, respond_responses]
  · rw [hp, if_neg (by simp), if_pos hl, respond_responses]
  · rw [hp, if_neg (by simp), if_neg (Nat.not_lt.mpr hl), respond_responses, setHash_responses]

theorem execXsum_responses {seed : Word} {P : Payload} {s t : State} (h : execXsum seed P s = .next t) :
    t.responses = s.responses ++ [xsumResponse s.maxWriteBytes seed P] := by
  unfold xsumResponse
  rcases execXsum_cases seed P s with ⟨hl, e⟩ | ⟨hl, e⟩ <;> rw [e] at h <;> cases h
  · rw [if_pos hl, respond_responses]
  · rw [if_neg (Nat.not_lt.mpr hl), respond_responses]

/-- Settles O49: each command's one response is a function of the command, the cap and, for `XWRITE`, the phase's tag. -/
theorem responsesRevealNoRegister : Obligations.ResponsesRevealNoRegister := by
  intro i s s' t t' hcap hresp hdigest hphase h h'
  cases i with
  | xinit seed => cases h; cases h'; simp [hresp]
  | xreset => cases h; cases h'; simp [hresp]
  | xwrite P =>
    rw [exec_xwrite] at h h'
    rw [execXwrite_responses h, execXwrite_responses h', hresp, hcap, hphase ⟨P, rfl⟩]
  | xdigest => exact absurd rfl hdigest
  | xsum seed P =>
    rw [exec_xsum] at h h'
    rw [execXsum_responses h, execXsum_responses h', hresp, hcap]
  | xinfo => cases h; cases h'; simp [hresp, hcap]

end Sys2Proof.Machine
end

