-- ==== Sys2Proof/Proofs/State.lean ====
section
/-!
SUPPORT. The state and its rules (spec/10_state.md): the invariants of R28, the phase transitions of R30, the writers of
`SEED` and `TOTAL_LEN` (R21, R23), the frames of R34, and the step that runs a decoded command (R31).
-/

namespace Sys2Proof.Machine

/-! ### The invariants of R28 -/

/-- The check as a proposition: I-1, I-3, I-6 and I-7, in this order. -/
theorem hashState_wf_iff (h : HashState) :
    h.wf = true ↔
      h.buf.length < 16 ∧ h.buf.length = h.totalLen.toNat % 16 ∧
        (16 ≤ h.totalLen.toNat ∨ h.lane = initLanes h.seed) ∧ ∀ d, h.phase = .finalized d → d = digestOf h := by
  rcases hp : h.phase with - | d
  · simp [HashState.wf, hp, and_assoc]
  · simp [HashState.wf, hp, digestOf, and_assoc]

theorem initState_wf (seed : Word) : (initState seed).wf = true := by
  rw [hashState_wf_iff]
  exact ⟨Nat.zero_lt_succ _, rfl, .inr rfl, nofun⟩

/-- A write that the spec gives a meaning keeps the invariants. For I-6: with fewer than 16 bytes in all, no block has
been completed, so the lanes are still the initial ones. -/
theorem absorb_wf {h : HashState} {P : Payload} (hw : h.wf = true) (hp : h.phase = .streaming)
    (hn : h.totalLen.toNat + P.length < 2 ^ 64) : (absorb h P).wf = true := by
  rw [hashState_wf_iff] at hw ⊢
  obtain ⟨hbuf, hcnt, hlane, -⟩ := hw
  have htotal := absorb_totalLen_toNat h P hbuf hn
  have hrest : (absorb h P).buf.length = (h.buf.length + P.length) % 16 := by
    rw [absorb_eq h P hbuf, tailOf_length, List.length_append]
  refine ⟨by omega, by omega, ?_, fun d hd => ?_⟩
  · rcases Nat.lt_or_ge (h.totalLen.toNat + P.length) 16 with hs | hs
    · right
      have hinit : h.lane = initLanes h.seed := hlane.resolve_left (by omega)
      rw [absorb_seed, ← hinit, absorb_eq h P hbuf]
      exact lanesAfter_short _ _ (by rw [List.length_append]; omega)
    · left; omega
  · rw [absorb_phase, hp] at hd; cases hd

/-- Caching the digest of the registers establishes I-7, the other registers being kept. -/
theorem setPhase_digestOf_wf {h : HashState} (hw : h.wf = true) :
    (h.setPhase (.finalized (digestOf h))).wf = true := by
  rw [hashState_wf_iff] at hw ⊢
  obtain ⟨hbuf, hcnt, hlane, -⟩ := hw
  exact ⟨hbuf, hcnt, hlane, fun d hd => (Phase.finalized.inj hd).symm⟩

/-- Settles O54: a session is the state of one write after `InitState`, with its digest perhaps taken. -/
theorem sessionHasInvariants : Obligations.SessionHasInvariants := by
  rintro h ⟨A, hA, hs⟩
  have hw : (sessionState h.seed A).wf = true := by
    rw [← absorb_initState]
    exact absorb_wf (initState_wf _) rfl (by simpa using hA)
  rcases hs with hs | hs
  · rw [hs]; exact hw
  · rw [hs]; exact setPhase_digestOf_wf hw

/-! ### The form of responses (R77, R78) -/

@[simp] theorem rwStatus_responseWord (st : Status) (v : Word) (c : Len) : rwStatus (responseWord st v c) = st.code :=
  word_bits_127_120 _ _ _ _

@[simp] theorem rwZero_responseWord (st : Status) (v : Word) (c : Len) : rwZero (responseWord st v c) = 0 :=
  word_bits_119_96 _ _ _ _

theorem responseWf_responseWord (st : Status) (v : Word) (c : Len) : responseWf (responseWord st v c) = true := by
  have hcode : st.code.toNat ≤ 3 := by cases st <;> decide
  simp [responseWf, hcode]

theorem state_wf_iff (s : State) : s.wf = true ↔ s.hash.wf = true ∧ ∀ rw ∈ s.responses, responseWf rw = true := by
  simp [State.wf]

/-- A response of the model's making keeps the state's invariant, whatever it reports. -/
theorem respond_wf {s : State} (st : Status) (v : Word) (c : Len) (hw : s.wf = true) : (s.respond st v c).wf = true := by
  rw [state_wf_iff] at hw ⊢
  obtain ⟨hhash, hresp⟩ := hw
  refine ⟨hhash, fun rw hrw => ?_⟩
  rw [respond_responses, List.mem_append, List.mem_singleton] at hrw
  rcases hrw with hold | rfl
  · exact hresp rw hold
  · exact responseWf_responseWord st v c

theorem setHash_wf {s : State} {h : HashState} (hw : s.wf = true) (hh : h.wf = true) : (s.setHash h).wf = true := by
  rw [state_wf_iff] at hw ⊢
  exact ⟨hh, hw.2⟩

/-! ### Every command and every step keeps the invariants -/

theorem exec_keeps_hash_wf {i : Instr} {s t : State} (hw : s.hash.wf = true) (h : exec i s = .next t) :
    t.hash.wf = true := by
  obtain ⟨-, -, -, -, hc⟩ := exec_next_cases h
  rcases hc with hc | ⟨seed, -, hc⟩ | ⟨-, hc⟩ | ⟨P, -, hp, hn, hc⟩ | ⟨-, -, hc⟩ <;> rw [hc]
  · exact hw
  · exact initState_wf seed
  · exact initState_wf _
  · exact absorb_wf hw hp hn
  · exact setPhase_digestOf_wf hw

theorem exec_keeps_wf {i : Instr} {s t : State} (hw : s.wf = true) (h : exec i s = .next t) : t.wf = true := by
  have hh : t.hash.wf = true := exec_keeps_hash_wf ((state_wf_iff s).1 hw).1 h
  obtain ⟨st, v, c, ht, -⟩ := exec_next_cases h
  rw [ht]
  exact respond_wf st v c (setHash_wf hw hh)

/-- Settles O51: a step is idle, a reset, one error response, or a command run. -/
theorem stepKeepsInvariants : Obligations.StepKeepsInvariants := by
  intro s t hw h
  rcases step_next_cases h with ⟨-, rfl⟩ | ⟨-, rest, -, -, rfl⟩ | ⟨-, -, rest, -, -, -, rfl⟩ | ⟨-, -, rest, i, -, -, he⟩
  · exact hw
  · exact setHash_wf hw (initState_wf _)
  · exact respond_wf _ _ _ hw
  · exact exec_keeps_wf (s := s.setInbox rest) hw he

/-- Settles O50: the reset registers are those of `InitState(0)`, and there is no response yet. -/
theorem resetSatisfiesInvariants : Obligations.ResetSatisfiesInvariants :=
  (state_wf_iff _).2 ⟨initState_wf _, nofun⟩

/-- Settles O25: `InitState(0)` with its constants, which is also what `XINIT 0` writes. -/
theorem resetRegisterValues : Obligations.ResetRegisterValues :=
  ⟨by decide, fun _ => ⟨_, rfl, rfl⟩⟩

/-! ### A step runs the decoded command (R31, R59) -/

/-- Settles O7: the command is the next move, and decoding it picks the arm of `step` that runs it. -/
theorem stepRunsDecodedInstruction : Obligations.StepRunsDecodedInstruction := by
  intro s cw P rest i hin hd
  rw [step, takeEvent_cons s _ rest hin]
  simp only [hd, setInbox_eq]

/-- Decoding an encoded instruction that fits the descriptor gives it back (R71 to R75). -/
theorem decode_encode (i : Instr) (hw : i.wf = true) : decode (encode i).1 (encode i).2 = .ok i := by
  have htable : Laws.EncodesByTable.Statement i := by
    cases i with
    | xinit seed => exact Laws.EncodesByTable.xinit seed
    | xreset => exact Laws.EncodesByTable.xreset
    | xwrite P => exact Laws.EncodesByTable.xwrite P
    | xdigest => exact Laws.EncodesByTable.xdigest
    | xsum seed P => exact Laws.EncodesByTable.xsum seed P
    | xinfo => exact Laws.EncodesByTable.xinfo
  have hoperands : i = i.op.instr (Desc.seed (encode i).1) (encode i).2 := by
    cases i <;> simp [encode, Instr.op, Op.instr]
  obtain ⟨hrsv, hop, hseed, hlen, hpay⟩ := htable hw
  exact (decode_eq_ok_iff _ _ _).2 ⟨hrsv, i.op, hop, hseed, hlen, hpay, hoperands⟩

/-- Settles O8: the presented command is the next move, and it decodes to the instruction. -/
theorem presentedInstructionRuns : Obligations.PresentedInstructionRuns := fun s i hw =>
  stepRunsDecodedInstruction (s.present (commandOf i)) _ _ s.inbox i rfl (decode_encode i hw)

/-! ### What each command leaves in the registers, when it answers -/

section
variable {s t : State}

theorem exec_xinit_hash {seed : Word} (h : exec (.xinit seed) s = .next t) : t.hash = initState seed := by
  cases h; rfl

theorem exec_xreset_hash (h : exec .xreset s = .next t) : t.hash = initState s.hash.seed := by
  cases h; rfl

/-- An `XWRITE` that answers has written its payload without overflow and says OK, or has ended with an error and written
nothing but the response. -/
theorem exec_xwrite_next_cases {P : Payload} (h : exec (.xwrite P) s = .next t) :
    (s.hash.totalLen.toNat + P.length < 2 ^ 64 ∧
      t = (s.setHash (absorb s.hash P)).respond .ok 0 (BitVec.ofNat 64 P.length)) ∨
    ∃ e : ErrorKind, t = s.respond e.status 0 0 := by
  rw [exec_xwrite] at h
  rcases execXwrite_cases P s with ⟨-, e⟩ | ⟨-, -, e⟩ | ⟨-, -, -, e⟩ | ⟨-, -, hn, e⟩ <;> rw [e] at h <;> cases h
  · exact .inr ⟨.invalidState, rfl⟩
  · exact .inr ⟨.lengthLimitExceeded, rfl⟩
  · exact .inl ⟨hn, rfl⟩

theorem exec_xwrite_seed_phase {P : Payload} (h : exec (.xwrite P) s = .next t) :
    t.hash.seed = s.hash.seed ∧ t.hash.phase = s.hash.phase := by
  rcases exec_xwrite_next_cases h with ⟨-, rfl⟩ | ⟨e, rfl⟩
  · exact ⟨absorb_seed _ _, absorb_phase _ _⟩
  · exact ⟨rfl, rfl⟩

/-- `XDIGEST` writes `PHASE` and `DIGEST` only, and only in phase Streaming (R141). -/
theorem exec_xdigest_hash (h : exec .xdigest s = .next t) :
    (s.hash.phase = .streaming ∧ t.hash = s.hash.setPhase (.finalized (digestOf s.hash))) ∨
    ((∃ d, s.hash.phase = .finalized d) ∧ t.hash = s.hash) := by
  rw [exec_xdigest] at h
  rcases hp : s.hash.phase with - | d
  · rw [execXdigest_streaming s hp] at h; cases h; exact .inl ⟨rfl, rfl⟩
  · rw [execXdigest_finalized s d hp] at h; cases h; exact .inr ⟨⟨d, rfl⟩, rfl⟩

theorem exec_xdigest_keeps (h : exec .xdigest s = .next t) :
    t.hash.seed = s.hash.seed ∧ t.hash.lane = s.hash.lane ∧ t.hash.totalLen = s.hash.totalLen ∧
      t.hash.buf = s.hash.buf := by
  rcases exec_xdigest_hash h with ⟨-, hh⟩ | ⟨-, hh⟩ <;> rw [hh]
  · exact ⟨rfl, rfl, rfl, rfl⟩
  · exact ⟨rfl, rfl, rfl, rfl⟩

/-- `XDIGEST` enters phase Finalized with the digest of the registers, and stays there with the digest it has (R30). -/
theorem exec_xdigest_phase (h : exec .xdigest s = .next t) :
    (s.hash.phase = .streaming → t.hash.phase = .finalized (digestOf s.hash)) ∧
    ∀ d, s.hash.phase = .finalized d → t.hash.phase = .finalized d := by
  rcases exec_xdigest_hash h with ⟨hp, hh⟩ | ⟨⟨d, hp⟩, hh⟩ <;> rw [hh, hp]
  · exact ⟨fun _ => rfl, nofun⟩
  · exact ⟨nofun, fun _ hd => hd⟩

theorem exec_xsum_hash {seed : Word} {P : Payload} (h : exec (.xsum seed P) s = .next t) : t.hash = s.hash := by
  rw [exec_xsum] at h
  rcases execXsum_cases seed P s with ⟨-, e⟩ | ⟨-, e⟩ <;> rw [e] at h <;> cases h
  · rfl
  · rfl

theorem exec_xinfo_hash (h : exec .xinfo s = .next t) : t.hash = s.hash := by
  cases h; rfl

end

/-- Settles O59: one rule per command. -/
theorem accessMatrixFrames : Obligations.AccessMatrixFrames := by
  intro i s t h
  cases i with
  | xinit seed => trivial
  | xreset => exact (congrArg HashState.seed (exec_xreset_hash h)).trans (initState_seed _)
  | xwrite P => exact exec_xwrite_seed_phase h
  | xdigest => exact exec_xdigest_keeps h
  | xsum seed P => exact exec_xsum_hash h
  | xinfo => exact exec_xinfo_hash h

/-! ### `PHASE` and `DIGEST` (R30) -/

/-- Settles O55: the row of R30 for each move of the host. -/
theorem phaseTransitions : Obligations.PhaseTransitions := by
  intro s t h
  rcases step_next_cases h with ⟨hin, rfl⟩ | ⟨e, rest, hin, he, rfl⟩ | ⟨cw, P, rest, why, hin, hd, rfl⟩ |
    ⟨cw, P, rest, i, hin, hd, he⟩ <;> rw [hin]
  · rcases he with rfl | ⟨cw, P, rfl⟩
    · rfl
    · rfl
  · simp only [hd, respond_hash, setInbox_hash]
  · simp only [hd]
    cases i with
    | xinit seed => exact congrArg HashState.phase (exec_xinit_hash he)
    | xreset => exact congrArg HashState.phase (exec_xreset_hash he)
    | xwrite P => exact (exec_xwrite_seed_phase he).2
    | xdigest => exact exec_xdigest_phase (s := s.setInbox rest) he
    | xsum seed P => exact congrArg HashState.phase (exec_xsum_hash (s := s.setInbox rest) he)
    | xinfo => exact congrArg HashState.phase (exec_xinfo_hash (s := s.setInbox rest) he)

/-- Settles O56: of the commands that write a register, `XWRITE` and `XDIGEST` do so in phase Streaming only. -/
theorem finalizedRegistersAreFrozen : Obligations.FinalizedRegistersAreFrozen := by
  intro s t d hfin h hne
  have hstream : s.hash.phase ≠ .streaming := by rw [hfin]; nofun
  rcases step_next_cases h with ⟨-, rfl⟩ | ⟨e, rest, hin, he, -⟩ | ⟨-, -, rest, -, -, -, rfl⟩ |
    ⟨cw, P, rest, i, hin, hd, he⟩
  · exact absurd rfl hne
  · exact ⟨e, rest, hin, he.elim .inl fun hr => .inr (.inl hr)⟩
  · exact absurd rfl hne
  · refine ⟨_, rest, hin, .inr (.inr ⟨cw, P, i, rfl, hd, ?_⟩)⟩
    obtain ⟨-, -, -, -, hc⟩ := exec_next_cases he
    rcases hc with hc | ⟨seed, rfl, -⟩ | ⟨rfl, -⟩ | ⟨-, -, hp, -⟩ | ⟨-, hp, -⟩
    · exact absurd hc hne
    · rfl
    · rfl
    · exact absurd hp hstream
    · exact absurd hp hstream

/-! ### `SEED` (R21) -/

/-- Settles O57: of the five ways a command can leave the registers, only that of `XINIT` has another seed. -/
theorem seedIsWrittenOnlyByXinitAndReset : Obligations.SeedIsWrittenOnlyByXinitAndReset := by
  intro s t h hne
  rcases step_next_cases h with ⟨-, rfl⟩ | ⟨e, rest, hin, he, rfl⟩ | ⟨-, -, rest, -, -, -, rfl⟩ |
    ⟨cw, P, rest, i, hin, hd, he⟩
  · exact absurd rfl hne
  · refine ⟨e, rest, hin, ?_⟩
    rcases he with he | ⟨cw, P, he⟩
    · exact .inl ⟨he, rfl⟩
    · exact .inr (.inl ⟨cw, P, he, rfl⟩)
  · exact absurd rfl hne
  · refine ⟨_, rest, hin, .inr (.inr ⟨cw, P, rfl, ?_⟩)⟩
    obtain ⟨-, -, -, -, hc⟩ := exec_next_cases he
    rcases hc with hc | ⟨seed, rfl, hc⟩ | ⟨-, hc⟩ | ⟨Q, -, -, -, hc⟩ | ⟨-, -, hc⟩ <;> rw [hc] at hne ⊢
    · exact absurd rfl hne
    · exact hd
    · exact absurd rfl hne
    · exact absurd (absorb_seed _ _) hne
    · exact absurd rfl hne

/-! ### `TOTAL_LEN` (R23, R172) -/

/-- The payload of a decoded `XWRITE` is the command's, and has `LEN` bytes (R75 steps 4 and 5). -/
theorem decode_xwrite {cw : Desc} {P Q : Payload} (h : decode cw P = .ok (.xwrite Q)) :
    Q = P ∧ P.length = (Desc.len cw).toNat := by
  obtain ⟨-, op, -, -, -, hlen, hi⟩ := (decode_eq_ok_iff _ _ _).1 h
  cases op <;> cases hi
  exact ⟨rfl, hlen⟩

theorem errorKind_code_ne_ok (e : ErrorKind) : e.status.code ≠ 0x00 := by
  cases e <;> decide

/-- An `XWRITE` that answers OK counts its payload without wrapping; one that answers an error counts nothing. -/
theorem exec_xwrite_totalLen {P : Payload} {s t : State} (h : exec (.xwrite P) s = .next t) :
    ∃ rw, t.responses = s.responses ++ [rw] ∧
      (rwStatus rw = 0x00 → t.hash.totalLen.toNat = s.hash.totalLen.toNat + P.length) ∧
      (rwStatus rw ≠ 0x00 → t.hash.totalLen = s.hash.totalLen) := by
  rcases exec_xwrite_next_cases h with ⟨hn, rfl⟩ | ⟨e, rfl⟩ <;>
    refine ⟨_, respond_responses _ _ _ _, ?_⟩ <;> rw [rwStatus_responseWord]
  · refine ⟨fun _ => ?_, fun hne => absurd rfl hne⟩
    rw [respond_hash, setHash_hash, absorb_totalLen, BitVec.toNat_add, BitVec.toNat_ofNat, Nat.add_mod_mod,
      Nat.mod_eq_of_lt hn]
  · exact ⟨fun hok => absurd hok (errorKind_code_ne_ok e), fun _ => rfl⟩

/-- Settles O58: one rule per move of the host. -/
theorem totalLenIsCountedOnlyByXwrite : Obligations.TotalLenIsCountedOnlyByXwrite := by
  intro s t h
  rcases step_next_cases h with ⟨hin, rfl⟩ | ⟨e, rest, hin, he, rfl⟩ | ⟨cw, P, rest, why, hin, hd, rfl⟩ |
    ⟨cw, P, rest, i, hin, hd, he⟩ <;> rw [hin]
  · rcases he with rfl | ⟨cw, P, rfl⟩
    · rfl
    · rfl
  · simp only [hd, respond_hash, setInbox_hash]
  · simp only [hd]
    cases i with
    | xinit seed => exact congrArg HashState.totalLen (exec_xinit_hash he)
    | xreset => exact congrArg HashState.totalLen (exec_xreset_hash he)
    | xwrite Q =>
      obtain ⟨rfl, hlen⟩ := decode_xwrite hd
      rw [← hlen]
      exact exec_xwrite_totalLen (s := s.setInbox rest) he
    | xdigest =>
      obtain ⟨-, -, htotal, -⟩ := exec_xdigest_keeps he
      exact htotal
    | xsum seed P => exact congrArg HashState.totalLen (exec_xsum_hash (s := s.setInbox rest) he)
    | xinfo => exact congrArg HashState.totalLen (exec_xinfo_hash (s := s.setInbox rest) he)

end Sys2Proof.Machine
end

