-- ==== Sys2Proof/Proofs/Memory.lean ====
section
/-!
SUPPORT. The byte-indexed spaces (spec/20_memory.md): what a read in range returns (R53), and which cells a write sets and
which it keeps (R55).
-/

namespace Sys2Proof.Machine

/-! ### Reads (R53) -/

/-- In range, the value the model chose for reads past the end (log 15) does not show. -/
theorem byteAt_eq_getElem {S : Payload} {off : Nat} (h : off < S.length) : byteAt S off = S[off] :=
  (List.getElem_eq_getD 0).symm

theorem memRead1_zeroExtend_toNat (S : Payload) (off : Nat) :
    ((memRead1 S off).zeroExtend 32).toNat = (byteAt S off).toNat :=
  BitVec.toNat_setWidth_of_le (by decide)

theorem memRead4_low_byte (S : Payload) (off : Nat) : (memRead4 S off).extractLsb' 0 8 = byteAt S off :=
  BitVec.extractLsb'_append_eq_right

/-- The byte on top is the whole of the word above its other 24 bits. -/
theorem memRead4_high_byte (S : Payload) (off : Nat) : (memRead4 S off).extractLsb' 24 8 = byteAt S (off + 3) := by
  have h0 := (byteAt S off).isLt
  have h1 := (byteAt S (off + 1)).isLt
  have h2 := (byteAt S (off + 2)).isLt
  have h3 := (byteAt S (off + 3)).isLt
  apply BitVec.eq_of_toNat_eq
  rw [BitVec.extractLsb'_toNat, memRead4_toNat, Nat.shiftRight_eq_div_pow]
  omega

/-- Settles O19: the value of a word read is `memRead4_toNat`, and every byte it names is in range. -/
theorem wordReadIsLittleEndian : Obligations.WordReadIsLittleEndian := by
  intro S off
  constructor
  · intro h
    have h0 : byteAt S off = S[off] := byteAt_eq_getElem (by omega)
    have h1 : byteAt S (off + 1) = S[off + 1] := byteAt_eq_getElem (by omega)
    have h2 : byteAt S (off + 2) = S[off + 2] := byteAt_eq_getElem (by omega)
    have h3 : byteAt S (off + 3) = S[off + 3] := byteAt_eq_getElem (by omega)
    rw [← h0, ← h1, ← h2, ← h3]
    exact ⟨memRead4_toNat S off, memRead4_low_byte S off, memRead4_high_byte S off⟩
  · intro h
    rw [memRead1_zeroExtend_toNat, byteAt_eq_getElem h]
    exact ⟨rfl, Nat.le_of_lt_succ S[off].isLt⟩

/-! ### Writes (R55) -/

section
variable {buf : Payload} {off : Nat} (T : Payload) (hoff : off ≤ buf.length)
include hoff

/-- Before `off`, the cells are those of the part of the buffer that a write puts back in front. -/
theorem memWrite_getElem?_before {k : Nat} (hk : k < off) : (memWrite buf off T)[k]? = buf[k]? := by
  rw [memWrite, List.append_assoc, List.getElem?_append_left (by rw [List.length_take]; omega),
    List.getElem?_take_of_lt hk]

/-- From `off` on, the cells are those of the payload followed by the rest of the buffer. -/
theorem memWrite_getElem?_from (j : Nat) :
    (memWrite buf off T)[off + j]? = (T ++ buf.drop (off + T.length))[j]? := by
  have hfront : (buf.take off).length = off := List.length_take_of_le hoff
  rw [memWrite, List.append_assoc, List.getElem?_append_right (by omega), hfront, Nat.add_sub_cancel_left]

theorem memWrite_getElem?_within {j : Nat} (hj : j < T.length) : (memWrite buf off T)[off + j]? = T[j]? := by
  rw [memWrite_getElem?_from T hoff, List.getElem?_append_left hj]

theorem memWrite_getElem?_after {k : Nat} (hk : off + T.length ≤ k) : (memWrite buf off T)[k]? = buf[k]? := by
  obtain ⟨i, rfl⟩ := Nat.exists_eq_add_of_le hk
  rw [Nat.add_assoc, memWrite_getElem?_from T hoff, List.getElem?_append_right (Nat.le_add_right _ _),
    Nat.add_sub_cancel_left, List.getElem?_drop, Nat.add_assoc]

end

/-- Settles O20: a cell is before the written ones, among them, or after them. -/
theorem bufferWriteSetsItsCellsOnly : Obligations.BufferWriteSetsItsCellsOnly := by
  intro buf T off hoff _
  refine ⟨fun j hj => memWrite_getElem?_within T hoff hj, fun k hk => ?_⟩
  rcases hk with hbefore | hafter
  · exact memWrite_getElem?_before T hoff hbefore
  · exact memWrite_getElem?_after T hoff hafter

end Sys2Proof.Machine
end

