-- ==== Sys2Proof/Proofs/Encoding.lean ====
section
/-!
SUPPORT. Commands and responses (spec/30_encoding.md): the decoder and the encoder are inverse (R71 to R75), the decoder
agrees with the table of R73, illegal commands (R76), the responses (R77, R79, R84), and the assembler (R80).
-/

namespace Sys2Proof

/-! ### Decoding and encoding are inverse (R71 to R75) -/

/-- Settles O2: the encoding passes every check of the decoder, which reads the operands from the fields they were put in. -/
theorem decodeEncodeRoundTrip : Obligations.DecodeEncodeRoundTrip := Machine.decode_encode

/-- A command made from the fields that its row of R73 uses is encoded with these fields, the others being zero. -/
theorem encode_instr (op : Op) {seed : Word} {len : Len} {P : Payload} (hseed : op.usesSeed = false → seed = 0)
    (hlen : op.usesLen = false → len = 0) (hP : P.length = len.toNat) :
    encode (op.instr seed P) = (mkDesc op.code seed len, P) := by
  have hcount : BitVec.ofNat 64 P.length = len := by simp [hP]
  have hempty : len = 0 → P = [] := by rintro rfl; exact List.eq_nil_of_length_eq_zero hP
  cases op with
  | xinit => rw [hempty (hlen rfl), hlen rfl]; rfl
  | xreset => rw [hempty (hlen rfl), hlen rfl, hseed rfl]; rfl
  | xwrite => rw [← hcount, hseed rfl]; rfl
  | xdigest => rw [hempty (hlen rfl), hlen rfl, hseed rfl]; rfl
  | xsum => rw [← hcount]; rfl
  | xinfo => rw [hempty (hlen rfl), hlen rfl, hseed rfl]; rfl

theorem instr_wf (op : Op) (seed : Word) {P : Payload} (hP : P.length < 2 ^ 64) : (op.instr seed P).wf = true := by
  have hfits : Payload.fits P = true := decide_eq_true hP
  cases op with
  | xwrite => exact hfits
  | xsum => exact hfits
  | xinit => rfl
  | xreset => rfl
  | xdigest => rfl
  | xinfo => rfl

/-- Settles O3: the checks that a legal command passes say that its unused fields are zero and that `LEN` counts its
payload, and these are the fields an encoding has. -/
theorem encodeDecodeRoundTrip : Obligations.EncodeDecodeRoundTrip := by
  intro cw P i h
  obtain ⟨hrsv, op, hop, hseed, hlen, hP, rfl⟩ := (decode_eq_ok_iff cw P i).1 h
  constructor
  · rw [encode_instr op hseed hlen hP, ← opOf_eq_some hop, mkDesc_of_fields cw hrsv]
  · exact instr_wf op _ (by rw [hP]; exact (Desc.len cw).isLt)

/-- A legal command carries the payload of the instruction it decodes to. -/
theorem payload_of_decode {cw : Desc} {P : Payload} {i : Instr} (h : decode cw P = .ok i) : i.payload = P := by
  rw [← encode_payload, (encodeDecodeRoundTrip cw P i h).1]

/-! ### The table of R73 -/

@[simp] theorem op_instr (op : Op) (seed : Word) (P : Payload) : (op.instr seed P).op = op := by cases op <;> rfl

theorem code_injective {op op' : Op} (h : op.code = op'.code) : op = op' :=
  Option.some.inj (by rw [← opOf_code, h, opOf_code])

theorem opOf_eq_some_iff {opc : BitVec 8} {op : Op} : opOf? opc = some op ↔ opc = op.code :=
  ⟨opOf_eq_some, fun h => by rw [h, opOf_code]⟩

/-- The `match` column has the row's opcode and zeros; the `mask` column has ones in `OPC`, `RSV` and each unused field. -/
theorem table_row_fields : ∀ row ∈ opcodeTable,
    row.matchBits = mkDesc row.op.code 0 0 ∧
    row.mask = BitVec.allOnes 8 ++ BitVec.allOnes 24 ++ (if row.op.usesSeed then 0 else BitVec.allOnes 32) ++
      (if row.op.usesLen then 0 else BitVec.allOnes 64) := by decide

theorem exists_table_row (op : Op) : ∃ row ∈ opcodeTable, row.op = op := by
  cases op <;> decide

theorem table_row_op_injective : ∀ row ∈ opcodeTable, ∀ row' ∈ opcodeTable, row.op = row'.op → row = row' := by decide

/-- Two words are equal when their four fields are. -/
theorem word_eq_iff (w w' : Desc) :
    w = w' ↔ Desc.opc w = Desc.opc w' ∧ Desc.rsv w = Desc.rsv w' ∧ Desc.seed w = Desc.seed w' ∧
      Desc.len w = Desc.len w' :=
  ⟨fun h => h ▸ ⟨rfl, rfl, rfl, rfl⟩, fun ⟨h1, h2, h3, h4⟩ => word_ext h1 h2 h3 h4⟩

/-- A field is compared with zero where the mask has ones, and not at all where it has zeros. -/
theorem and_mask_eq_zero_iff {n : Nat} (x : BitVec n) (uses : Bool) :
    (x &&& if uses then 0 else BitVec.allOnes n) = 0 ↔ (uses = false → x = 0) := by
  cases uses
  · simp
  · simp

/-- A descriptor selects a row exactly when it passes the steps 1 to 3 of R75 for the row's command. -/
theorem selects_iff {row : TableRow} (hrow : row ∈ opcodeTable) (cw : Desc) :
    cw &&& row.mask = row.matchBits ↔
      Desc.opc cw = row.op.code ∧ Desc.rsv cw = 0 ∧ (row.op.usesSeed = false → Desc.seed cw = 0) ∧
        (row.op.usesLen = false → Desc.len cw = 0) := by
  obtain ⟨hmatch, hmask⟩ := table_row_fields row hrow
  rw [hmatch, hmask, word_eq_iff, opc_mkDesc, rsv_mkDesc, seed_mkDesc, len_mkDesc]
  simp only [Desc.opc, Desc.rsv, Desc.seed, Desc.len, BitVec.extractLsb'_and, word_bits_127_120, word_bits_119_96,
    word_bits_95_64, word_bits_63_0, BitVec.and_allOnes, and_mask_eq_zero_iff]

/-- Decoding a descriptor that selects a row, with a payload of `LEN` bytes, answers the row's command. -/
theorem decode_eq_ok_of_selects {row : TableRow} (hrow : row ∈ opcodeTable) {cw : Desc} {P : Payload}
    (h : cw &&& row.mask = row.matchBits) (hP : P.length = (Desc.len cw).toNat) :
    decode cw P = .ok (row.op.instr (Desc.seed cw) P) := by
  obtain ⟨hopc, hrsv, hseed, hlen⟩ := (selects_iff hrow cw).1 h
  exact (decode_eq_ok_iff _ _ _).2 ⟨hrsv, row.op, opOf_eq_some_iff.2 hopc, hseed, hlen, hP, rfl⟩

/-- Settles O4: selecting a row is passing the first three steps of R75 for its opcode. -/
theorem decodeAgreesWithTable : Obligations.DecodeAgreesWithTable := by
  intro cw P
  refine ⟨fun i h => ?_, fun row hrow hsel hP => ?_, fun row hrow row' hrow' hsel hsel' => ?_⟩
  · obtain ⟨hrsv, op, hop, hseed, hlen, hP, rfl⟩ := (decode_eq_ok_iff cw P i).1 h
    obtain ⟨row, hrow, rfl⟩ := exists_table_row op
    exact ⟨hP, row, hrow, (selects_iff hrow cw).2 ⟨opOf_eq_some hop, hrsv, hseed, hlen⟩, (op_instr _ _ _).symm⟩
  · exact ⟨_, decode_eq_ok_of_selects hrow hsel hP, op_instr _ _ _⟩
  · obtain ⟨hopc, -⟩ := (selects_iff hrow cw).1 hsel
    obtain ⟨hopc', -⟩ := (selects_iff hrow' cw).1 hsel'
    exact table_row_op_injective row hrow row' hrow' (code_injective (hopc.symm.trans hopc'))

/-! ### Illegal commands (R76, R163) -/

theorem usesSeed_eq_false_iff (op : Op) : op.usesSeed = false ↔ op.code ≠ 1 ∧ op.code ≠ 5 := by
  cases op <;> decide

theorem usesLen_eq_false_iff (op : Op) : op.usesLen = false ↔ op.code ≠ 3 ∧ op.code ≠ 5 := by
  cases op <;> decide

/-- A command is legal exactly when none of the five causes of R163 applies. -/
theorem decode_ok_iff (cw : Desc) (P : Payload) :
    (∃ i, decode cw P = .ok i) ↔
      Desc.rsv cw = 0 ∧ (1 ≤ (Desc.opc cw).toNat ∧ (Desc.opc cw).toNat ≤ 6) ∧
        (Desc.opc cw ≠ 1 → Desc.opc cw ≠ 5 → Desc.seed cw = 0) ∧
        (Desc.opc cw ≠ 3 → Desc.opc cw ≠ 5 → Desc.len cw = 0) ∧ P.length = (Desc.len cw).toNat := by
  constructor
  · rintro ⟨i, h⟩
    obtain ⟨hrsv, op, hop, hseed, hlen, hP, -⟩ := (decode_eq_ok_iff cw P i).1 h
    have hrange : 1 ≤ (Desc.opc cw).toNat ∧ (Desc.opc cw).toNat ≤ 6 :=
      not_not.1 fun hr => by rw [(opOf_eq_none_iff _).2 hr] at hop; cases hop
    rw [usesSeed_eq_false_iff, ← opOf_eq_some hop] at hseed
    rw [usesLen_eq_false_iff, ← opOf_eq_some hop] at hlen
    exact ⟨hrsv, hrange, fun h1 h5 => hseed ⟨h1, h5⟩, fun h3 h5 => hlen ⟨h3, h5⟩, hP⟩
  · rintro ⟨hrsv, hrange, hseed, hlen, hP⟩
    obtain ⟨op, hop⟩ : ∃ op, opOf? (Desc.opc cw) = some op :=
      Option.ne_none_iff_exists'.1 fun hn => (opOf_eq_none_iff _).1 hn hrange
    rw [opOf_eq_some hop] at hseed hlen
    refine ⟨_, (decode_eq_ok_iff _ _ _).2 ⟨hrsv, op, hop, fun hs => ?_, fun hl => ?_, hP, rfl⟩⟩
    · obtain ⟨h1, h5⟩ := (usesSeed_eq_false_iff op).1 hs
      exact hseed h1 h5
    · obtain ⟨h3, h5⟩ := (usesLen_eq_false_iff op).1 hl
      exact hlen h3 h5

/-- Settles O1: each descriptor is decoded by the steps of R75. -/
theorem specDescriptorsDecode : Obligations.SpecDescriptorsDecode := by
  unfold Obligations.SpecDescriptorsDecode
  decide

end Sys2Proof

namespace Sys2Proof.Machine

/-- The step of an illegal command, whatever the reason: the error's response and nothing else (R76). -/
theorem step_of_decode_error {s : State} {cw : Desc} {P : Payload} {rest : List HostEvent} {why : Illegal}
    (hin : s.inbox = .command cw P :: rest) (hd : decode cw P = .error why) :
    step s = .next ((s.setInbox rest).respond .illegalCommand 0 0) := by
  rw [step, takeEvent_cons s _ rest hin]
  simp only [hd]
  exact (raise_eq_next_iff _ _ _).2 rfl

theorem illegalCommand_word : responseWord .illegalCommand 0 0 = 0x03000000000000000000000000000000 := by decide

/-- Settles O9: a command to which one of the five causes applies does not decode, so its step raises the error. -/
theorem illegalCommandAnswersAndChangesNothing : Obligations.IllegalCommandAnswersAndChangesNothing := by
  intro s cw P rest hin hbad
  rcases decode_ok_or_error cw P with hok | ⟨why, hd⟩
  · obtain ⟨hrsv, hrange, hseed, hlen, hP⟩ := (decode_ok_iff cw P).1 hok
    rcases hbad with hb | hb | ⟨h1, h5, hb⟩ | ⟨h3, h5, hb⟩ | hb
    · exact absurd hrsv hb
    · exact absurd hrange hb
    · exact absurd (hseed h1 h5) hb
    · exact absurd (hlen h3 h5) hb
    · exact absurd hP hb
  · rw [step_of_decode_error hin hd, respond_eq, illegalCommand_word, setInbox_eq]

/-! ### Responses (R77, R79, R84) -/

/-- Settles O45: a response word is made of its four fields. -/
theorem responseWordFields : Obligations.ResponseWordFields :=
  ⟨fun _ _ _ => ⟨word_bits_127_120 _ _ _ _, word_bits_119_96 _ _ _ _, word_bits_95_64 _ _ _ _, word_bits_63_0 _ _ _ _⟩,
    rfl, rfl, rfl, rfl⟩

/-- `XSUM` answers the hash of its payload, or that the payload is over the cap (R150, R162). -/
theorem exec_xsum_response {seed : Word} {P : Payload} {s t : State} (h : exec (.xsum seed P) s = .next t) :
    ∃ rw, t.responses = s.responses ++ [rw] ∧
      (rw = responseWord .ok (xxh32 P seed) 0 ∨ rw = responseWord .lengthLimitExceeded 0 0) := by
  refine ⟨_, execXsum_responses h, ?_⟩
  unfold xsumResponse
  split
  · exact .inr rfl
  · exact .inl (by rw [absorb_initState, digestOf_sessionState])

/-- `XWRITE` answers how many bytes it has taken, or one of its two errors (R133, R161, R162). -/
theorem exec_xwrite_response {P : Payload} {s t : State} (h : exec (.xwrite P) s = .next t) :
    ∃ rw, t.responses = s.responses ++ [rw] ∧
      (rw = responseWord .ok 0 (BitVec.ofNat 64 P.length) ∨ rw = responseWord .invalidState 0 0 ∨
        rw = responseWord .lengthLimitExceeded 0 0) := by
  refine ⟨_, execXwrite_responses h, ?_⟩
  unfold xwriteResponse
  split
  · exact .inr (.inl rfl)
  · split
    · exact .inr (.inr rfl)
    · exact .inl rfl

/-- `XDIGEST` answers the digest that it leaves cached (R141). -/
theorem exec_xdigest_response {s t : State} (h : exec .xdigest s = .next t) :
    ∃ rw, t.responses = s.responses ++ [rw] ∧ ∃ d, t.hash.phase = .finalized d ∧ rw = responseWord .ok d 0 := by
  rw [exec_xdigest] at h
  rcases hp : s.hash.phase with - | d
  · rw [execXdigest_streaming s hp] at h; cases h
    exact ⟨_, respond_responses _ _ _ _, _, rfl, rfl⟩
  · rw [execXdigest_finalized s d hp] at h; cases h
    exact ⟨_, respond_responses _ _ _ _, d, hp, rfl⟩

/-- The step of a command: illegal and answered so, or run on the state with the command taken. -/
theorem step_command_cases {s t : State} {cw : Desc} {P : Payload} {rest : List HostEvent}
    (hin : s.inbox = .command cw P :: rest) (h : step s = .next t) :
    (∃ why, decode cw P = .error why ∧ t = (s.setInbox rest).respond .illegalCommand 0 0) ∨
    ∃ i, decode cw P = .ok i ∧ exec i (s.setInbox rest) = .next t := by
  rcases decode_ok_or_error cw P with ⟨i, hd⟩ | ⟨why, hd⟩
  · rw [stepRunsDecodedInstruction s cw P rest i hin hd] at h
    exact .inr ⟨i, hd, h⟩
  · rw [step_of_decode_error hin hd] at h
    cases h; exact .inl ⟨why, hd, rfl⟩

/-- Settles O47: the rule of each command's response, the operands being those of the decoded command. -/
theorem responseValuesComplete : Obligations.ResponseValuesComplete := by
  intro s t cw P rest hin h
  rcases step_command_cases hin h with ⟨why, hd, rfl⟩ | ⟨i, hd, he⟩ <;> simp only [hd]
  · exact ⟨_, respond_responses _ _ _ _, rfl⟩
  · cases i with
    | xinit seed => cases he; exact ⟨_, respond_responses _ _ _ _, rfl⟩
    | xreset => cases he; exact ⟨_, respond_responses _ _ _ _, rfl⟩
    | xwrite Q =>
      obtain ⟨rfl, hlen⟩ := decode_xwrite hd
      have hcount : Desc.len cw = BitVec.ofNat 64 Q.length := by simp [hlen]
      rw [hcount]
      exact exec_xwrite_response (s := s.setInbox rest) he
    | xdigest => exact exec_xdigest_response (s := s.setInbox rest) he
    | xsum seed Q =>
      obtain rfl : Q = P := payload_of_decode hd
      exact exec_xsum_response (s := s.setInbox rest) he
    | xinfo => cases he; exact ⟨_, respond_responses _ _ _ _, by rw [infoValue_eq]; rfl⟩

/-- No command writes the host's coming moves. -/
theorem exec_inbox {i : Instr} {s t : State} (h : exec i s = .next t) : t.inbox = s.inbox := by
  obtain ⟨st, v, c, ht, -⟩ := exec_next_cases h
  rw [ht, respond_inbox, setHash_inbox]

theorem step_command_inbox {s t : State} {cw : Desc} {P : Payload} {rest : List HostEvent}
    (hin : s.inbox = .command cw P :: rest) (h : step s = .next t) : t.inbox = rest := by
  rcases step_command_cases hin h with ⟨-, -, rfl⟩ | ⟨i, -, he⟩
  · rfl
  · exact exec_inbox he

/-- Settles O46: the one response is that of R79, and the rows of the four commands with no error say `OK`. -/
theorem oneResponsePerCommand : Obligations.OneResponsePerCommand := by
  intro s t cw P rest hin h
  obtain ⟨rw, hresp, hrow⟩ := responseValuesComplete s t cw P rest hin h
  refine ⟨step_command_inbox hin h, rw, hresp, fun i hd hwrite hsum => ?_⟩
  simp only [hd] at hrow
  cases i with
  | xinit seed => rw [hrow, rwStatus_responseWord]; rfl
  | xreset => rw [hrow, rwStatus_responseWord]; rfl
  | xwrite Q => exact absurd rfl hwrite
  | xdigest => obtain ⟨d, -, rfl⟩ := hrow; rw [rwStatus_responseWord]; rfl
  | xsum seed Q => exact absurd rfl hsum
  | xinfo => rw [hrow, rwStatus_responseWord]; rfl

/-! ### Commands as text (R80) -/

/-! #### Digits -/

theorem digitVal_hexDigit : ∀ d < 16, digitVal? (hexDigit d) = some d := by decide

theorem mem_hexDigits {k n : Nat} {c : Char} (h : c ∈ hexDigits k n) : ∃ d < 16, c = hexDigit d := by
  induction k generalizing n with
  | zero => cases h
  | succ k ih =>
    rw [hexDigits, List.mem_append, List.mem_singleton] at h
    rcases h with h | h
    · exact ih h
    · exact ⟨n % 16, Nat.mod_lt _ (by decide), h⟩

/-- One digit is read as one more place of the number. -/
theorem readDigits_hexDigit (acc : Nat) {d : Nat} (hd : d < 16) (rest : List Char) :
    readDigits 16 acc (hexDigit d :: rest) = readDigits 16 (16 * acc + d) rest := by
  simp [readDigits, digitVal_hexDigit d hd, hd]

/-- `k` digits written from a number are read as `k` more places, which hold the number modulo `16 ^ k`. -/
theorem readDigits_hexDigits (k n acc : Nat) (rest : List Char) :
    readDigits 16 acc (hexDigits k n ++ rest) = readDigits 16 (16 ^ k * acc + n % 16 ^ k) rest := by
  induction k generalizing n rest with
  | zero => simp [hexDigits, Nat.mod_one]
  | succ k ih =>
    have hplace : 16 * (16 ^ k * acc + n / 16 % 16 ^ k) + n % 16 = 16 ^ (k + 1) * acc + n % 16 ^ (k + 1) := by
      rw [Nat.pow_succ', Nat.mod_mul]; ring
    rw [hexDigits, List.append_assoc, List.singleton_append, ih, readDigits_hexDigit _ (Nat.mod_lt _ (by decide)), hplace]

/-! #### Seeds -/

theorem readWordDigits_of_readDigits {cs : List Char} {n : Nat} (hne : cs ≠ []) (h : readDigits 16 0 cs = some n)
    (hn : n < 2 ^ 32) : readWordDigits 16 cs = some (BitVec.ofNat 32 n) := by
  cases cs with
  | nil => exact absurd rfl hne
  | cons c rest => rw [readWordDigits, h]; exact if_pos hn

@[simp] theorem readSeed_showWord (w : Word) : readSeed (showWord w) = some w := by
  have hdigits : readDigits 16 0 (hexDigits 8 w.toNat) = some w.toNat := by
    have hmod : w.toNat % 16 ^ 8 = w.toNat := Nat.mod_eq_of_lt w.isLt
    rw [← List.append_nil (hexDigits 8 w.toNat), readDigits_hexDigits, hmod, Nat.mul_zero, Nat.zero_add]
    rfl
  have hread := readWordDigits_of_readDigits (List.concat_ne_nil _ _) hdigits w.isLt
  rw [BitVec.ofNat_toNat, BitVec.setWidth_eq] at hread
  exact hread

theorem comma_notMem_showWord (w : Word) : ',' ∉ showWord w := by
  have hdigit : ∀ d < 16, ',' ≠ hexDigit d := by decide
  simp only [showWord, List.mem_cons, not_or]
  refine ⟨by decide, by decide, fun h => ?_⟩
  obtain ⟨d, hd, hc⟩ := mem_hexDigits h
  exact hdigit d hd hc

/-! #### Payloads -/

theorem readByte_hexDigit (b : Byte) : readByte (hexDigit (b.toNat / 16 % 16)) (hexDigit (b.toNat % 16)) = some b := by
  have hvalue : 16 * (b.toNat / 16 % 16) + b.toNat % 16 = b.toNat := by have := b.isLt; omega
  rw [readByte, digitVal_hexDigit _ (Nat.mod_lt _ (by decide)), digitVal_hexDigit _ (Nat.mod_lt _ (by decide))]
  simp [hvalue]

/-- A list of items begins with two digits and the character after them. -/
theorem showItems_cons (b : Byte) (rest : Payload) :
    showItems (b :: rest) = hexDigit (b.toNat / 16 % 16) :: hexDigit (b.toNat % 16) ::
      (if rest = [] then [']'] else ' ' :: showItems rest) := by
  cases rest <;> rfl

theorem readItems_showItems (b : Byte) (rest : Payload) : readItems (showItems (b :: rest)) = some (b :: rest) := by
  induction rest generalizing b with
  | nil => rw [showItems_cons, if_pos rfl]; simp [readItems, readByte_hexDigit]
  | cons b' rest ih => rw [showItems_cons, if_neg (List.cons_ne_nil _ _)]; simp [readItems, readByte_hexDigit, ih]

/-- A byte list that does not end at once is read item by item. -/
theorem readPayload_bracket {cs : List Char} (h : cs ≠ [']']) : readPayload ('[' :: cs) = readItems cs := by
  unfold readPayload
  split
  · next heq => exact absurd (List.cons.inj heq).2 h
  · next heq => rw [(List.cons.inj heq).2]
  · next heq => cases heq
  · next hbracket _ => exact absurd rfl (hbracket cs)

@[simp] theorem readPayload_showPayload (p : Payload) : readPayload (showPayload p) = some p := by
  cases p with
  | nil => rfl
  | cons b rest =>
    rw [showPayload, readPayload_bracket (by simp [showItems_cons]), readItems_showItems]

/-! #### Lines -/

/-- The first separator ends the text before it. -/
theorem cutAt_append {sep : Char} {before : List Char} (h : sep ∉ before) (after : List Char) :
    cutAt sep (before ++ sep :: after) = some (before, after) := by
  induction before with
  | nil => simp [cutAt]
  | cons c before ih =>
    obtain ⟨hc, hbefore⟩ := not_or.1 (mt List.mem_cons.2 h)
    simp [cutAt, Ne.symm hc, ih hbefore]

theorem space_notMem_mnemonicOf (op : Op) : ' ' ∉ mnemonicOf op := by cases op <;> decide

@[simp] theorem dropSpaces_space (cs : List Char) : dropSpaces (' ' :: cs) = dropSpaces cs := if_pos rfl

theorem dropSpaces_of_ne {c : Char} (h : c ≠ ' ') (cs : List Char) : dropSpaces (c :: cs) = c :: cs := if_neg h

@[simp] theorem dropSpaces_showWord (w : Word) : dropSpaces (showWord w) = showWord w := dropSpaces_of_ne (by decide) _

@[simp] theorem dropSpaces_showWord_append (w : Word) (after : List Char) :
    dropSpaces (showWord w ++ after) = showWord w ++ after := dropSpaces_of_ne (by decide) _

@[simp] theorem dropSpaces_showPayload (p : Payload) : dropSpaces (showPayload p) = showPayload p :=
  dropSpaces_of_ne (by decide) _

/-- Settles O6: a line is cut at its first space into the mnemonic and the operands, and each operand is read back. -/
theorem assemblerReadsWhatItWrites : Obligations.AssemblerReadsWhatItWrites := by
  intro i
  cases i with
  | xinit seed =>
    rw [showInstr, readInstr, cutAt_append (space_notMem_mnemonicOf _)]
    simp
  | xreset => rfl
  | xwrite p =>
    rw [showInstr, readInstr, cutAt_append (space_notMem_mnemonicOf _)]
    simp [mnemonicOf]
  | xdigest => rfl
  | xsum seed p =>
    rw [showInstr, readInstr, cutAt_append (space_notMem_mnemonicOf _)]
    simp [mnemonicOf, cutAt_append (comma_notMem_showWord seed)]
  | xinfo => rfl

end Sys2Proof.Machine
end

