-- ==== Sys2Proof/Proofs/Mixing.lean ====
section
/-!
SUPPORT. The mixing primitives (spec/40_mixing_primitives.md): what each of them computes on natural numbers (R103, R105
to R109), which of them lose nothing (R103, R105, R106), and that the lanes of a fold do not mix (R110).
-/

namespace Sys2Proof.Machine

/-! ### Rotation (R103) -/

/-- Bit `i` of `x` is bit `i + r` of the rotation when that is still a bit, else it has come round to `i + r - 32`. -/
theorem rotl32_getLsbD_add_mod (x : Word) {r i : Nat} (hr : r < 32) (hi : i < 32) :
    (rotl32 x r).getLsbD ((i + r) % 32) = x.getLsbD i := by
  rw [rotl32_eq_rotateLeft x r hr, BitVec.getLsbD_rotateLeft_of_le hr]
  rcases Nat.lt_or_ge (i + r) 32 with hstay | hwrap
  · have hpos : (i + r) % 32 = i + r := Nat.mod_eq_of_lt hstay
    simp [hpos, hstay]
  · have hpos : (i + r) % 32 = i + r - 32 := by omega
    have hback : 32 - r + (i + r - 32) = i := by omega
    simp [hpos, hback, show i + r - 32 < r by omega]

/-- The rotation as the rule writes it, with the or of the two shifts. -/
theorem rotl32_toNat_or (x : Word) (r : Nat) :
    (rotl32 x r).toNat = x.toNat * 2 ^ r % 2 ^ 32 ||| x.toNat / 2 ^ (32 - r) := by
  rw [rotl32, BitVec.toNat_or, BitVec.toNat_shiftLeft, BitVec.toNat_ushiftRight, Nat.shiftLeft_eq,
    Nat.shiftRight_eq_div_pow]

/-- Settles O12: the rotation of each bit, the sum of `rotl32_toNat`, and the or of the two shifts. -/
theorem rotateMovesEachBit : Obligations.RotateMovesEachBit := fun x r _ h0 hr hi =>
  ⟨rotl32_getLsbD_add_mod x hr hi, rotl32_toNat x r h0 hr, rotl32_toNat_or x r⟩

/-! ### The steps on natural numbers (R105 to R109) -/

/-- The step that `round`, `tailword` and `tailbyte` share: a product added, a rotation, a product. -/
theorem mulRotMul_toNat (acc w p q : Word) {r : Nat} (h0 : 0 < r) (hr : r < 32) :
    (rotl32 (acc + w * p) r * q).toNat =
      rotNat ((acc.toNat + w.toNat * p.toNat) % 2 ^ 32) r * q.toNat % 2 ^ 32 := by
  rw [BitVec.toNat_mul, rotl32_toNat _ r h0 hr, BitVec.toNat_add, BitVec.toNat_mul, Nat.add_mod_mod]

/-- Settles O13: `round` is the shared step with `PRIME2`, 13 and `PRIME1`. -/
theorem roundInNaturals : Obligations.RoundInNaturals := by
  intro acc input
  rw [laneRound, mulRotMul_toNat _ _ _ _ (by decide) (by decide), prime1_toNat, prime2_toNat]

theorem tailword_toNat (acc w : Word) :
    (tailword acc w).toNat = rotNat ((acc.toNat + w.toNat * 3266489917) % 2 ^ 32) 17 * 668265263 % 2 ^ 32 := by
  rw [tailword, mulRotMul_toNat _ _ _ _ (by decide) (by decide), prime3_toNat, prime4_toNat]

/-- Zero-extended, the byte has its unsigned value. -/
theorem tailbyte_toNat (acc : Word) (b : Byte) :
    (tailbyte acc b).toNat = rotNat ((acc.toNat + b.toNat * 374761393) % 2 ^ 32) 11 * 2654435761 % 2 ^ 32 := by
  have hbyte : (b.zeroExtend 32).toNat = b.toNat := BitVec.toNat_setWidth_of_le (by decide)
  rw [tailbyte, mulRotMul_toNat _ _ _ _ (by decide) (by decide), hbyte, prime5_toNat, prime1_toNat]

/-- Settles O16: both tail steps are the shared step, with their own constants. -/
theorem tailStepsInNaturals : Obligations.TailStepsInNaturals := ⟨tailword_toNat, tailbyte_toNat⟩

/-- Settles O14: each of the five steps is read on naturals in turn. -/
theorem avalancheInNaturals : Obligations.AvalancheInNaturals := by
  intro x a b c d ha hb hc hd
  rw [avalanche, xorShift_toNat, BitVec.toNat_mul, prime3_toNat, xorShift_toNat, BitVec.toNat_mul, prime2_toNat,
    xorShift_toNat, ← ha, ← hb, ← hc, ← hd]

/-- Settles O15: the sums are reduced once for all, and the lanes rotated by `rotl32_toNat`. -/
theorem mergeInNaturals : Obligations.MergeInNaturals := by
  intro L
  simp only [merge, BitVec.toNat_add, Nat.mod_add_mod]
  rw [rotl32_toNat _ 1 (by decide) (by decide), rotl32_toNat _ 7 (by decide) (by decide),
    rotl32_toNat _ 12 (by decide) (by decide), rotl32_toNat _ 18 (by decide) (by decide)]

/-! ### The steps that lose nothing (R103, R105, R106) -/

/-- No bit is lost by a rotation, for each bit stands somewhere in the result. -/
theorem rotl32_bijective {r : Nat} (hr : r < 32) : Function.Bijective fun x => rotl32 x r := by
  refine Finite.injective_iff_bijective.1 fun x y hxy => BitVec.eq_of_getLsbD_eq fun i hi => ?_
  replace hxy : rotl32 x r = rotl32 y r := hxy
  rw [← rotl32_getLsbD_add_mod x hr hi, hxy, rotl32_getLsbD_add_mod y hr hi]

/-- An odd constant has an inverse modulo `2^32`, which undoes the product. -/
theorem mul_bijective_of_odd {p : Word} (hp : Odd p.toNat) : Function.Bijective fun x => x * p := by
  have hcoprime : p.toNat.Coprime (2 ^ 32) := (Nat.coprime_two_right.2 hp).pow_right 32
  obtain ⟨q, -, hq⟩ := Nat.exists_mul_mod_eq_one_of_coprime hcoprime (by decide)
  have hinv : p * BitVec.ofNat 32 q = 1 := by
    apply BitVec.eq_of_toNat_eq
    rw [BitVec.toNat_mul, BitVec.toNat_ofNat, Nat.mul_mod_mod, hq]
    rfl
  exact IsUnit.isUnit_iff_mulRight_bijective.1 (IsUnit.of_mul_eq_one _ hinv)

/-- Only zero is its own right shift. -/
theorem eq_zero_of_ushiftRight_eq_self {z : Word} {r : Nat} (h0 : 0 < r) (h : z >>> r = z) : z = 0 := by
  have hdiv : z.toNat / 2 ^ r = z.toNat := by
    rw [← Nat.shiftRight_eq_div_pow, ← BitVec.toNat_ushiftRight, h]
  by_contra hz
  have hpos : 0 < z.toNat := Nat.pos_of_ne_zero fun h => hz (BitVec.eq_of_toNat_eq h)
  exact absurd hdiv (Nat.div_lt_self hpos (Nat.one_lt_two_pow h0.ne')).ne

/-- Two values with one image differ by a `z` that is its own right shift, so they do not differ. -/
theorem xorShift_bijective {r : Nat} (h0 : 0 < r) : Function.Bijective fun x => xorShift x r := by
  refine Finite.injective_iff_bijective.1 fun x y hxy => BitVec.xor_eq_zero_iff.1 ?_
  replace hxy : x ^^^ x >>> r = y ^^^ y >>> r := hxy
  refine eq_zero_of_ushiftRight_eq_self h0 ?_
  calc (x ^^^ y) >>> r = x ^^^ (x ^^^ x >>> r) ^^^ y >>> r := by
        rw [BitVec.ushiftRight_xor_distrib, ← BitVec.xor_assoc x x, BitVec.xor_self, BitVec.zero_xor]
    _ = x ^^^ y := by rw [hxy, BitVec.xor_assoc, BitVec.xor_assoc, BitVec.xor_self, BitVec.xor_zero]

/-- Settles O17: `round` is a sum, a rotation and a product, each a bijection. -/
theorem roundIsBijectiveInAcc : Obligations.RoundIsBijectiveInAcc := by
  intro input
  have hsum : Function.Bijective fun x => x + input * prime2 := AddGroup.addRight_bijective _
  have hrotate : Function.Bijective fun x => rotl32 x 13 := rotl32_bijective (by decide)
  have hprime1 : Function.Bijective fun x => x * prime1 := mul_bijective_of_odd (by decide)
  exact hprime1.comp (hrotate.comp hsum)

/-- Settles O18: each of the five steps is a bijection. -/
theorem avalancheIsBijective : Obligations.AvalancheIsBijective := by
  have hshift15 : Function.Bijective fun x => xorShift x 15 := xorShift_bijective (by decide)
  have hshift13 : Function.Bijective fun x => xorShift x 13 := xorShift_bijective (by decide)
  have hshift16 : Function.Bijective fun x => xorShift x 16 := xorShift_bijective (by decide)
  have hprime2 : Function.Bijective fun x => x * prime2 := mul_bijective_of_odd (by decide)
  have hprime3 : Function.Bijective fun x => x * prime3 := mul_bijective_of_odd (by decide)
  exact hshift16.comp (hprime3.comp (hshift13.comp (hprime2.comp hshift15)))

/-! ### Folds (R110) -/

theorem fold_get (L : Lanes) (B : Payload) (i : Fin 4) :
    (fold L B).get i = laneRound (L.get i) (memRead4 B (4 * i)) := by
  match i with
  | 0 => rfl
  | 1 => rfl
  | 2 => rfl
  | 3 => rfl

/-- A word read sees its own four bytes only. -/
theorem memRead4_congr {B B' : Payload} {off : Nat} (h : ∀ j, j < 4 → B[off + j]? = B'[off + j]?) :
    memRead4 B off = memRead4 B' off := by
  have hbyte (j : Nat) (hj : j < 4) : byteAt B (off + j) = byteAt B' (off + j) := by
    rw [byteAt, byteAt, List.getD_eq_getElem?_getD, List.getD_eq_getElem?_getD, h j hj]
  have hfirst : byteAt B off = byteAt B' off := hbyte 0 (by decide)
  rw [memRead4, memRead4, hbyte 3 (by decide), hbyte 2 (by decide), hbyte 1 (by decide), hfirst]

/-- Settles O21: a lane is `round` of itself and of a word that sees its own four bytes. -/
theorem foldLanesAreIndependent : Obligations.FoldLanesAreIndependent := by
  intro L L' B B' i
  refine ⟨fold_get L B i, fun hlane hbytes => ?_⟩
  rw [fold_get, fold_get, hlane, memRead4_congr hbytes]

end Sys2Proof.Machine
end

