-- ==== Sys2Proof/Proofs/InitReset.lean ====
section
/-!
SUPPORT. Initialisation and reset (spec/41_init_reset.md): what `XINIT` and `XRESET` leave (R120 to R122), which commands
decode to them (R71 to R75), and that they forget the session (R123).
-/

namespace Sys2Proof.Machine

/-! ### Which commands decode to a given instruction (R71 to R75) -/

theorem wf_of_payload_length_lt {i : Instr} (h : i.payload.length < 2 ^ 64) : i.wf = true := by
  cases i with
  | xwrite P => exact decide_eq_true h
  | xsum seed P => exact decide_eq_true h
  | xinit seed => rfl
  | xreset => rfl
  | xdigest => rfl
  | xinfo => rfl

/-- The commands that decode to an instruction are those with the fields of its encoding: its opcode, its seed or zero,
and its payload with `LEN` counting it. -/
theorem decode_eq_ok_iff_fieldsAre (cw : Desc) (P : Payload) (i : Instr) :
    decode cw P = .ok i ↔ FieldsAre cw P i.op.code (Desc.seed (encode i).1) i.payload := by
  constructor
  · intro h
    obtain ⟨henc, hwf⟩ := encodeDecodeRoundTrip cw P i h
    obtain rfl : (encode i).1 = cw := congrArg Prod.fst henc
    exact ⟨opc_encode i, rsv_encode i, rfl, len_encode i hwf, (payload_of_decode h).symm⟩
  · rintro ⟨hopc, hrsv, hseed, hlen, rfl⟩
    have hwf : i.wf = true := wf_of_payload_length_lt (hlen ▸ (Desc.len cw).isLt)
    have hcw : cw = (encode i).1 := (word_eq_iff _ _).2
      ⟨hopc.trans (opc_encode i).symm, hrsv.trans (rsv_encode i).symm, hseed,
        BitVec.eq_of_toNat_eq (hlen.trans (len_encode i hwf).symm)⟩
    rw [hcw, ← encode_payload]
    exact decode_encode i hwf

/-! ### What the two commands answer (R120 to R122) -/

theorem exec_xinit (seed : Word) (s : State) :
    exec (.xinit seed) s = .next ((s.setHash (initState seed)).respond .ok 0 0) := rfl

theorem exec_xreset_eq_xinit (s : State) : exec .xreset s = exec (.xinit s.hash.seed) s := rfl

/-- `InitState` register by register, with the source's decimal constants (R122). -/
theorem initState_decimal (seed : Word) :
    initState seed =
      { seed := seed
        lane := ⟨seed + 2654435761 + 2246822519, seed + 2246822519, seed, seed - 2654435761⟩
        totalLen := 0
        buf := []
        phase := .streaming } := by
  rw [initState, initLanes_decimal]

/-- Settles O22: the HashState is replaced by `InitState(seed)`, and the encoding has the fields of `XINIT`'s row. -/
theorem xinitResult : Obligations.XinitResult := by
  intro seed s
  constructor
  · rw [exec_xinit, setHash_respond_eq, initState_decimal]
  · intro cw P
    rw [decode_eq_ok_iff_fieldsAre, show Desc.seed (encode (.xinit seed)).1 = seed from seed_mkDesc _ _ _]
    rfl

/-- Settles O23: `XRESET` is `XINIT SEED`, and its encoding has no operand field but zeros. -/
theorem xresetResult : Obligations.XresetResult := by
  intro s
  constructor
  · obtain ⟨hexec, -⟩ := xinitResult s.hash.seed s
    rw [exec_xreset_eq_xinit, hexec]
  · intro cw P
    rw [decode_eq_ok_iff_fieldsAre, show Desc.seed (encode .xreset).1 = 0 from seed_mkDesc _ _ _]
    rfl

/-! ### Initialisation forgets the session (R123) -/

/-- Settles O24: `XINIT x` leaves the registers of `InitState(x)` from every state, and `SEED` is `x` among them. -/
theorem initialisationForgetsTheSession : Obligations.InitialisationForgetsTheSession := by
  intro x s
  refine ⟨⟨_, _, exec_xinit x s, exec_xreset_eq_xinit _, ?_⟩, exec_xreset_eq_xinit s, fun is t _ => ?_⟩
  · rw [respond_hash, setHash_hash, respond_hash, setHash_hash, initState_seed]
  · refine ⟨_, _, exec_xinit x t, exec_xinit x s, ?_⟩
    rw [respond_hash, setHash_hash, respond_hash, setHash_hash]

end Sys2Proof.Machine
end

