-- ==== Sys2Proof/Proofs/Write.lean ====
section
/-!
SUPPORT. The streaming command (spec/42_write.md): what `XWRITE` leaves (R130, R131), that a failed or empty one is
invisible (R134), that the chunking does not matter (R132), and that every step keeps the closed form of a session.
-/

namespace Sys2Proof.Machine

/-! ### The four steps on a HashState (R130, R131) -/

/-- With no bytes there is no block to fold and nothing to count. -/
theorem absorb_nil {h : HashState} (hb : h.buf.length < 16) : absorb h [] = h := by
  rw [absorb_eq h [] hb, List.append_nil, lanesAfter_short _ _ hb, tailOf_short _ hb]
  simp

theorem absorb_bufCnt {h : HashState} (P : Payload) (hb : h.buf.length < 16) :
    (absorb h P).bufCnt = (h.bufCnt + P.length) % 16 := by
  rw [absorb_eq h P hb, HashState.bufCnt, tailOf_length, List.length_append, HashState.bufCnt]

/-- A write keeps I-1 of R28. -/
theorem absorb_buf_length_lt {h : HashState} (P : Payload) (hb : h.buf.length < 16) :
    (absorb h P).buf.length < 16 :=
  (absorb_bufCnt P hb).trans_lt (Nat.mod_lt _ (by decide))

theorem lanesAfter_block (L : Lanes) {S : Payload} (h : S.length = 16) : lanesAfter L S = fold L S := by
  rw [lanesAfter_eq_foldBlocks, h]
  exact congrArg (fold L) (List.take_of_length_le h.le)

theorem tailOf_eq_nil {S : Payload} (h : S.length % 16 = 0) : tailOf S = [] :=
  List.eq_nil_of_length_eq_zero ((tailOf_length S).trans h)

/-! ### An accepted `XWRITE` (R130 to R133) -/

/-- An `XWRITE` that passes its checks runs the four steps and counts its payload. -/
theorem exec_xwrite_accepted {P : Payload} {s : State} (hp : s.hash.phase = .streaming)
    (hcap : P.length ≤ s.maxWriteBytes.toNat) (hn : s.hash.totalLen.toNat + P.length < 2 ^ 64) :
    exec (.xwrite P) s = .next ((s.setHash (absorb s.hash P)).respond .ok 0 (BitVec.ofNat 64 P.length)) := by
  rw [exec_xwrite, execXwrite, hp, if_neg (by simp), if_neg (Nat.not_lt.2 hcap), if_neg (Nat.not_le.2 hn)]

/-- Settles O27: an accepted write runs the four steps, whose closed form is `absorb_eq`; the encoding has the fields of
`XWRITE`'s row. -/
theorem xwriteResult : Obligations.XwriteResult := by
  intro P s hp hb hcap hn
  constructor
  · have htotal : s.hash.totalLen + BitVec.ofNat 64 P.length = BitVec.ofNat 64 (s.hash.totalLen.toNat + P.length) := by
      rw [BitVec.ofNat_add, BitVec.ofNat_toNat, BitVec.setWidth_eq]
    rw [exec_xwrite_accepted hp hcap hn, setHash_respond_eq, absorb_eq s.hash P hb, htotal, tailOf_eq_drop]
    rfl
  · intro cw Q
    rw [decode_eq_ok_iff_fieldsAre, show Desc.seed (encode (.xwrite P)).1 = 0 from seed_mkDesc _ _ _]
    rfl

/-- Settles O28: each corner is a length of pending bytes and payload together, in the closed form. -/
theorem xwriteCornerCases : Obligations.XwriteCornerCases := by
  intro P s hp hb hcap hn
  refine ⟨_, exec_xwrite_accepted hp hcap hn, ?_⟩
  rw [respond_hash, setHash_hash]
  refine ⟨fun hshort => ?_, fun hblock => ?_, fun hempty hwhole => ?_, ?_, absorb_bufCnt P hb⟩
  · rw [← List.length_append] at hshort
    rw [absorb_eq _ _ hb]
    exact ⟨lanesAfter_short _ _ hshort, tailOf_short _ hshort⟩
  · rw [← List.length_append] at hblock
    rw [absorb_eq _ _ hb]
    exact ⟨lanesAfter_block _ hblock, tailOf_eq_nil (by rw [hblock])⟩
  · rw [absorb_eq _ _ hb, hempty]
    exact tailOf_eq_nil hwhole
  · rintro rfl
    exact absorb_nil hb

/-! ### A failed or empty write is invisible (R134) -/

/-- A run answers exactly when its first command does and the others do after it. -/
theorem runInstrs_cons_eq_next_iff {i : Instr} {is : List Instr} {s t : State} :
    runInstrs (i :: is) s = .next t ↔ ∃ v, exec i s = .next v ∧ runInstrs is v = .next t := by
  rw [runInstrs]
  rcases exec i s with v | r | r
  · simp
  · simp
  · simp

/-- A command that wrote no register can be left out in front of a run: only its own response is missing. -/
theorem runInstrs_of_cons_keeps_hash {i : Instr} {is : List Instr} {s v t : State} (he : exec i s = .next v)
    (hh : v.hash = s.hash) (hrun : runInstrs is v = .next t) :
    ∃ u, runInstrs is s = .next u ∧ u.hash = t.hash ∧ u.responses = t.responses.eraseIdx s.responses.length := by
  obtain ⟨st, w, c, hv, -⟩ := exec_next_cases he
  have hcap : s.maxWriteBytes = v.maxWriteBytes := by rw [hv, respond_maxWriteBytes, setHash_maxWriteBytes]
  have hresp : v.responses = s.responses ++ [responseWord st w c] := by
    rw [hv, respond_responses, setHash_responses]
  obtain ⟨u, hu, huh, rs, -, ht, hur⟩ := runInstrs_congr hh.symm hcap hrun
  refine ⟨u, hu, huh, ?_⟩
  rw [ht, hur, hresp, List.append_assoc, List.eraseIdx_append_of_length_le le_rfl, Nat.sub_self]
  rfl

/-- Of the four ways `XWRITE` can end, an error writes no register, and an accepted write of no bytes absorbs nothing. -/
theorem exec_xwrite_keeps_hash {P : Payload} {s v : State}
    (hw : s.hash.phase ≠ .streaming ∨ s.maxWriteBytes.toNat < P.length ∨ (P = [] ∧ s.hash.buf.length < 16))
    (he : exec (.xwrite P) s = .next v) : v.hash = s.hash := by
  rw [exec_xwrite] at he
  rcases execXwrite_cases P s with ⟨-, e⟩ | ⟨-, -, e⟩ | ⟨-, -, -, e⟩ | ⟨hp, hcap, -, e⟩ <;> rw [e] at he <;> cases he
  · rfl
  · rfl
  · rcases hw with hphase | hover | ⟨rfl, hb⟩
    · exact absurd hp hphase
    · exact absurd hover (Nat.not_lt.2 hcap)
    · exact absorb_nil hb

/-- Settles O33: such a write leaves the registers as they are, and they alone and the cap decide what follows. -/
theorem failedOrEmptyWriteIsInvisible : Obligations.FailedOrEmptyWriteIsInvisible := by
  intro P later s t hw hrun
  obtain ⟨v, he, hlater⟩ := runInstrs_cons_eq_next_iff.1 hrun
  exact runInstrs_of_cons_keeps_hash he (exec_xwrite_keeps_hash hw he) hlater

/-! ### Chunking invariance (R132) -/

/-- Writes within the cap and the length limit all complete, and together absorb the concatenation of their payloads. -/
theorem runInstrs_xwrites {chunks : List Payload} {s : State} (hp : s.hash.phase = .streaming)
    (hb : s.hash.buf.length < 16) (hcap : ∀ b ∈ chunks, b.length ≤ s.maxWriteBytes.toNat)
    (hn : s.hash.totalLen.toNat + chunks.flatten.length < 2 ^ 64) :
    ∃ t, runInstrs (chunks.map .xwrite) s = .next t ∧ t.hash = absorb s.hash chunks.flatten := by
  induction chunks generalizing s with
  | nil => exact ⟨s, rfl, (absorb_nil hb).symm⟩
  | cons b chunks ih =>
    obtain ⟨hfirst, hrest⟩ := List.forall_mem_cons.1 hcap
    rw [List.flatten_cons, List.length_append, ← Nat.add_assoc] at hn
    have hlen : s.hash.totalLen.toNat + b.length < 2 ^ 64 := by omega
    obtain ⟨t, ht, hth⟩ :=
      ih (s := (s.setHash (absorb s.hash b)).respond .ok 0 (BitVec.ofNat 64 b.length))
        ((absorb_phase _ _).trans hp) (absorb_buf_length_lt b hb) hrest
        (by rw [respond_hash, setHash_hash, absorb_totalLen_toNat _ _ hb hlen]; exact hn)
    refine ⟨t, runInstrs_cons_eq_next_iff.2 ⟨_, exec_xwrite_accepted hp hfirst hlen, ht⟩, ?_⟩
    rw [hth, respond_hash, setHash_hash, absorb_absorb _ _ _ hb, List.flatten_cons]

/-- Settles O34: the chunks together and the whole at once absorb the same bytes. -/
theorem chunkingInvariance : Obligations.ChunkingInvariance := by
  intro chunks s hp hb hcap hwhole hn
  obtain ⟨t, ht, hth⟩ := runInstrs_xwrites hp hb hcap hn
  exact ⟨t, _, ht, exec_xwrite_accepted hp hwhole hn, hth⟩

/-! ### The closed form of a session (R131, R143, R28) -/

theorem initState_buf_length_lt (seed : Word) : (initState seed).buf.length < 16 := Nat.zero_lt_succ _

theorem initState_eq_sessionState (seed : Word) : initState seed = sessionState seed [] := by
  rw [← absorb_initState, absorb_nil (initState_buf_length_lt seed)]

theorem isSession_initState (seed : Word) : IsSession (initState seed) :=
  ⟨[], by decide, .inl (initState_eq_sessionState seed)⟩

/-- A write extends the byte sequence of the session. -/
theorem absorb_sessionState (seed : Word) (A P : Payload) :
    absorb (sessionState seed A) P = sessionState seed (A ++ P) := by
  rw [← absorb_initState, absorb_absorb _ _ _ (initState_buf_length_lt seed), absorb_initState]

/-- A session whose digest has not been taken. -/
theorem sessionState_of_streaming {h : HashState} (hs : IsSession h) (hp : h.phase = .streaming) :
    ∃ seed A, A.length < 2 ^ 64 ∧ h = sessionState seed A := by
  obtain ⟨A, hA, hopen | hdone⟩ := hs
  · exact ⟨h.seed, A, hA, hopen⟩
  · rw [hdone] at hp; cases hp

theorem isSession_absorb {h : HashState} {P : Payload} (hs : IsSession h) (hp : h.phase = .streaming)
    (hn : h.totalLen.toNat + P.length < 2 ^ 64) : IsSession (absorb h P) := by
  obtain ⟨seed, A, hA, rfl⟩ := sessionState_of_streaming hs hp
  have hcount : (sessionState seed A).totalLen.toNat = A.length := Nat.mod_eq_of_lt hA
  refine ⟨A ++ P, ?_, .inl ?_⟩
  · rw [List.length_append, ← hcount]; exact hn
  · rw [absorb_sessionState]; rfl

theorem isSession_setPhase_digestOf {h : HashState} (hs : IsSession h) (hp : h.phase = .streaming) :
    IsSession (h.setPhase (.finalized (digestOf h))) := by
  obtain ⟨seed, A, hA, rfl⟩ := sessionState_of_streaming hs hp
  exact ⟨A, hA, .inr (by rw [digestOf_sessionState]; rfl)⟩

theorem exec_keeps_session {i : Instr} {s t : State} (hs : IsSession s.hash) (h : exec i s = .next t) :
    IsSession t.hash := by
  obtain ⟨-, -, -, -, hc⟩ := exec_next_cases h
  rcases hc with hc | ⟨seed, -, hc⟩ | ⟨-, hc⟩ | ⟨P, -, hp, hn, hc⟩ | ⟨-, hp, hc⟩ <;> rw [hc]
  · exact hs
  · exact isSession_initState seed
  · exact isSession_initState _
  · exact isSession_absorb hs hp hn
  · exact isSession_setPhase_digestOf hs hp

/-- Settles O53: a reset begins an empty session, idling and an illegal command keep the registers, and a command keeps the
closed form. -/
theorem stepKeepsSession : Obligations.StepKeepsSession := by
  intro s t hs h
  rcases step_next_cases h with ⟨-, rfl⟩ | ⟨-, rest, -, -, rfl⟩ | ⟨-, -, rest, -, -, -, rfl⟩ | ⟨-, -, rest, i, -, -, he⟩
  · exact hs
  · exact isSession_initState _
  · exact hs
  · exact exec_keeps_session (s := s.setInbox rest) hs he

end Sys2Proof.Machine
end

