-- ==== Sys2Proof/Proofs/Digest.lean ====
section
/-!
SUPPORT. Finalization (spec/43_digest.md): the closed form of `Finalize` (R140), what `XDIGEST` leaves (R141), that a
finalized session answers the same digest for good (R142), and that no two seeds share the digest of the empty input (R144).
-/

namespace Sys2Proof.Machine

/-! ### `Finalize` (R140) -/

/-- Step 3: the words from the front of the tail, then the bytes after the last whole word. -/
theorem mixTail_eq_foldl (acc : Word) (T : Payload) :
    mixTail acc T =
      (List.range (T.length % 4)).foldl (fun a j => tailbyte a (memRead1 T (4 * (T.length / 4) + j)))
        ((List.range (T.length / 4)).foldl (fun a j => tailword a (memRead4 T (4 * j))) acc) := by
  simp only [mixTail, tailBytes_eq_foldl, tailWords_eq_foldl, Nat.zero_add]

/-- Step 2: the low half of the count is the count modulo `2^32`. -/
theorem total_low_word (total : Len) : total.extractLsb' 0 32 = BitVec.ofNat 32 (total.toNat % 2 ^ 32) := by
  apply BitVec.eq_of_toNat_eq
  rw [BitVec.extractLsb'_toNat, Nat.shiftRight_zero, BitVec.toNat_ofNat, Nat.mod_mod]

/-- Settles O36: the two tail loops as folds, the low half of the count as a remainder, and step 1 with its branches in
the other order. -/
theorem finalizeClosedForm : Obligations.FinalizeClosedForm := by
  intro seed total L T _
  have hstart : finalizeStart seed total L = if total.toNat < 16 then seed + 374761393 else merge L := by
    simp only [finalizeStart_eq, ← Nat.not_lt, ite_not]
  rw [finalize, mixTail_eq_foldl, hstart, total_low_word]
  rfl

/-! ### `XDIGEST` (R141) -/

/-- Settles O35: the digest of the registers is cached and returned, a cached one is returned as it is, and the encoding
has no operand field but zeros. -/
theorem xdigestResult : Obligations.XdigestResult := by
  refine ⟨fun s => ⟨fun hp => ?_, fun d hp => ?_⟩, fun cw P => ?_⟩
  · rw [exec_xdigest, execXdigest_streaming s hp, setHash_respond_eq]
    rfl
  · rw [exec_xdigest, execXdigest_finalized s d hp, respond_eq]
  · rw [decode_eq_ok_iff_fieldsAre, show Desc.seed (encode .xdigest).1 = 0 from seed_mkDesc _ _ _]
    rfl

/-! ### A finalized session is frozen (R142) -/

/-- In phase Finalized no command is refused, since the refusal of R130 is for phase Streaming only. -/
theorem exec_answers_of_finalized {s : State} {d : Word} (i : Instr) (hp : s.hash.phase = .finalized d) :
    ∃ t, exec i s = .next t := by
  rcases he : exec i s with t | r | r
  · exact ⟨t, rfl⟩
  · exact absurd he outcome_not_fault
  · obtain ⟨-, P, -, hstream, -⟩ := (refusedExactlyOnLengthOverflow i s r).1 he
    rw [hp] at hstream; cases hstream

/-- In phase Finalized only an initialisation writes a register. -/
theorem exec_keeps_hash_of_finalized {i : Instr} {s t : State} {d : Word} (hp : s.hash.phase = .finalized d)
    (hi : isInit i = false) (h : exec i s = .next t) : t.hash = s.hash := by
  have hstream : s.hash.phase ≠ .streaming := by rw [hp]; nofun
  obtain ⟨-, -, -, -, hc⟩ := exec_next_cases h
  rcases hc with hc | ⟨seed, rfl, -⟩ | ⟨rfl, -⟩ | ⟨-, -, hs, -⟩ | ⟨-, hs, -⟩
  · exact hc
  · cases hi
  · cases hi
  · exact absurd hs hstream
  · exact absurd hs hstream

/-- The same of a run. -/
theorem runInstrs_keeps_hash_of_finalized {is : List Instr} {s : State} {d : Word} (hp : s.hash.phase = .finalized d)
    (hinit : ∀ i ∈ is, isInit i = false) : ∃ t, runInstrs is s = .next t ∧ t.hash = s.hash := by
  induction is generalizing s with
  | nil => exact ⟨s, rfl, rfl⟩
  | cons i is ih =>
    obtain ⟨hi, his⟩ := List.forall_mem_cons.1 hinit
    obtain ⟨v, hv⟩ := exec_answers_of_finalized i hp
    have hvs : v.hash = s.hash := exec_keeps_hash_of_finalized hp hi hv
    obtain ⟨t, ht, htv⟩ := ih (s := v) (by rw [hvs]; exact hp) his
    exact ⟨t, runInstrs_cons_eq_next_iff.2 ⟨v, hv, ht⟩, htv.trans hvs⟩

/-- Settles O38: the first `XDIGEST` leaves its digest cached, the run keeps it there, and the last one returns it. -/
theorem xdigestIsIdempotent : Obligations.XdigestIsIdempotent := by
  intro s t between h hinit
  obtain ⟨-, hresp, d, hp, rfl⟩ := exec_xdigest_response h
  obtain ⟨u, hu, hut⟩ := runInstrs_keeps_hash_of_finalized hp hinit
  exact ⟨d, u, _, hresp, hu, hut, execXdigest_finalized u d (by rw [hut]; exact hp), hut, respond_responses _ _ _ _⟩

/-! ### The digest of the empty input (R144) -/

theorem xxh32_nil (seed : Word) : xxh32 [] seed = avalanche (seed + prime5) := by
  have hstart : finalizeStart seed 0 (initLanes seed) = seed + prime5 := finalizeStart_eq _ _ _
  have hfinal : xxh32 [] seed = avalanche (finalizeStart seed 0 (initLanes seed) + 0) := rfl
  rw [hfinal, add_zero, hstart]

/-- No payload is shorter than the empty one, so its `XSUM` is within every cap. -/
theorem xsumResponse_nil (cap : Len) (seed : Word) :
    xsumResponse cap seed [] = responseWord .ok (avalanche (seed + prime5)) 0 := by
  have hcap : ¬ cap.toNat < ([] : Payload).length := Nat.not_lt_zero _
  rw [xsumResponse, if_neg hcap, absorb_initState, digestOf_sessionState, xxh32_nil]

@[simp] theorem rwValue_responseWord (st : Status) (v : Word) (c : Len) : rwValue (responseWord st v c) = v :=
  word_bits_95_64 _ _ _ _

/-- Settles O39: the response carries `avalanche(seed + PRIME5)`, and `avalanche` loses nothing. -/
theorem emptyDigestSeparatesSeeds : Obligations.EmptyDigestSeparatesSeeds := by
  intro x y s t u ht hu hresp
  rw [exec_xsum] at ht hu
  rw [execXsum_responses ht, execXsum_responses hu, xsumResponse_nil, xsumResponse_nil] at hresp
  have hword := List.singleton_inj.1 (List.append_cancel_left hresp)
  have hvalue : avalanche (x + prime5) = avalanche (y + prime5) := by
    rw [← rwValue_responseWord .ok (avalanche (x + prime5)) 0, hword, rwValue_responseWord]
  exact add_right_cancel (avalancheIsBijective.injective hvalue)

end Sys2Proof.Machine
end

