-- ==== Sys2Proof/Proofs/OneShotInfo.lean ====
section
/-!
SUPPORT. The commands outside every session (spec/44_oneshot_info.md): what `XSUM` and `XINFO` answer (R150, R152), that
the one-shot is the streaming path (R151), and that either command can be removed from a run (R153).
-/

namespace Sys2Proof.Machine

/-! ### `XSUM` (R150) -/

/-- An `XSUM` within the cap answers `XXH32` of its payload (R143) and writes nothing else. -/
theorem exec_xsum_accepted {P : Payload} {s : State} (seed : Word) (hcap : P.length ≤ s.maxWriteBytes.toNat) :
    exec (.xsum seed P) s = .next (s.respond .ok (xxh32 P seed) 0) := by
  rw [exec_xsum, execXsum, if_neg (Nat.not_lt.2 hcap), absorb_initState, digestOf_sessionState]

/-- `XXH32` with its parts written out (R143): the source's initial lanes, one fold per whole block, and the rest. -/
theorem xxh32_closed_form (P : Payload) (seed : Word) :
    xxh32 P seed =
      finalize seed (BitVec.ofNat 64 P.length)
        ((List.range (P.length / 16)).foldl (fun L j => fold L (slice P (16 * j) (16 * j + 16)))
          ⟨seed + 2654435761 + 2246822519, seed + 2246822519, seed, seed - 2654435761⟩)
        (P.drop (16 * (P.length / 16))) := by
  rw [xxh32, lanesAfter, lanesOfBlocks, initLanes_decimal, tailOf_eq_drop]

/-- Settles O40: the accepted `XSUM` with `XXH32` in closed form; the encoding has the fields of `XSUM`'s row. -/
theorem xsumResult : Obligations.XsumResult := by
  intro seed P s hcap
  constructor
  · rw [exec_xsum_accepted seed hcap, respond_eq, xxh32_closed_form]
  · intro cw Q
    rw [decode_eq_ok_iff_fieldsAre, show Desc.seed (encode (.xsum seed P)).1 = seed from seed_mkDesc _ _ _]
    rfl

/-- The cap after reset is the default of R8, and no response has been produced before (log 1, log 2). -/
theorem exec_xsum_reset {P : Payload} {seed : Word} (hcap : P.length ≤ Config.defaultMaxWriteBytes.toNat) :
    ∃ t, exec (.xsum seed P) State.reset = .next t ∧ t.responses = [responseWord .ok (xxh32 P seed) 0] :=
  ⟨_, exec_xsum_accepted seed hcap, respond_responses _ _ _ _⟩

/-- Settles O42: each response word is computed from the three digests. -/
theorem knownDigests : Obligations.KnownDigests := by
  have hempty0 : responseWord .ok (xxh32 [] 0) 0 = 0x0000000002CC5D050000000000000000 := by decide
  have hempty1 : responseWord .ok (xxh32 [] 1) 0 = 0x000000000B2CB7920000000000000000 := by decide
  have htest : responseWord .ok (xxh32 [0x74, 0x65, 0x73, 0x74] 0) 0 = 0x000000003E2023CF0000000000000000 := by decide
  rw [Obligations.KnownDigests, ← hempty0, ← hempty1, ← htest]
  exact ⟨exec_xsum_reset (by decide), exec_xsum_reset (by decide), exec_xsum_reset (by decide)⟩

/-! ### `XINFO` (R152) -/

theorem exec_xinfo (s : State) : exec .xinfo s = .next (s.respond .ok infoValue s.maxWriteBytes) := rfl

/-- Settles O43: `VALUE` is `infoValue` as a number, and the encoding has no operand field but zeros. -/
theorem xinfoResult : Obligations.XinfoResult := by
  refine ⟨fun s => ?_, fun cw P => ?_⟩
  · rw [exec_xinfo, infoValue_eq, respond_eq]
  · rw [decode_eq_ok_iff_fieldsAre, show Desc.seed (encode .xinfo).1 = 0 from seed_mkDesc _ _ _]
    rfl

/-! ### Removing an `XSUM` or `XINFO` from a run (R153) -/

/-- A command outside every session writes no register. -/
theorem exec_keeps_hash_of_isAside {j : Instr} {s t : State} (hj : isAside j = true) (h : exec j s = .next t) :
    t.hash = s.hash := by
  cases j with
  | xsum seed P => exact exec_xsum_hash h
  | xinfo => exact exec_xinfo_hash h
  | xinit seed => cases hj
  | xreset => cases hj
  | xwrite P => cases hj
  | xdigest => cases hj

/-- A run of two command sequences answers exactly when the first does and the second does after it. -/
theorem runInstrs_append_eq_next_iff {is js : List Instr} {s t : State} :
    runInstrs (is ++ js) s = .next t ↔ ∃ v, runInstrs is s = .next v ∧ runInstrs js v = .next t := by
  rw [runInstrs_append]
  rcases runInstrs is s with v | r | r
  · simp
  · simp
  · simp

/-- One response per command (R84), over a run. -/
theorem runInstrs_responses_length {is : List Instr} {s t : State} (h : runInstrs is s = .next t) :
    t.responses.length = s.responses.length + is.length := by
  obtain ⟨-, -, -, rs, hrs, ht, -⟩ := runInstrs_congr (s' := s) rfl rfl h
  rw [ht, List.length_append, hrs]

/-- Settles O44: the command writes no register, so it can be left out in front of what follows it; its response is the
one after those of the commands before it. -/
theorem removingOneShotChangesNothingElse : Obligations.RemovingOneShotChangesNothingElse := by
  intro before after j s t hj hrun
  obtain ⟨v, hbefore, hrest⟩ := runInstrs_append_eq_next_iff.1 hrun
  obtain ⟨w, he, hafter⟩ := runInstrs_cons_eq_next_iff.1 hrest
  obtain ⟨u, hu, huh, hur⟩ := runInstrs_of_cons_keeps_hash he (exec_keeps_hash_of_isAside hj he) hafter
  rw [runInstrs_responses_length hbefore] at hur
  exact ⟨u, runInstrs_append_eq_next_iff.2 ⟨v, hbefore, hu⟩, huh, hur⟩

/-! ### The machine's own steps run the commands presented (R31, R59, R205) -/

/-- No command reads or writes the host's coming moves. -/
theorem exec_setInbox {i : Instr} {s t : State} (evs : List HostEvent) (h : exec i s = .next t) :
    exec i (s.setInbox evs) = .next (t.setInbox evs) := by
  obtain ⟨t', he, hhash, hcap, rw, hresp, hresp'⟩ := exec_congr (s := s) (s' := s.setInbox evs) rfl rfl h
  have hinbox : t'.inbox = evs := exec_inbox he
  have ht : t' = t.setInbox evs := State.ext hhash hcap hinbox (hresp'.trans hresp.symm)
  rw [he, ht]

/-- A step takes a presented instruction and runs it. -/
theorem step_commandOf {i : Instr} {s : State} {rest : List HostEvent} (hwf : i.wf = true)
    (hin : s.inbox = commandOf i :: rest) : step s = exec i (s.setInbox rest) :=
  stepRunsDecodedInstruction s _ _ rest i hin (decode_encode i hwf)

theorem core_run_succ {M : Host.Core} {k : Nat} {s t : M.State} (h : M.step s = .next t) :
    M.run (k + 1) s = M.run k t := by
  rw [Host.Core.run, h]

/-- As many steps as instructions presented run those instructions, one after the other. -/
theorem core_run_of_runInstrs {is : List Instr} {rest : List HostEvent} {s t : State} (hwf : ∀ i ∈ is, i.wf = true)
    (hin : s.inbox = is.map commandOf ++ rest) (h : runInstrs is (s.setInbox rest) = .next t) :
    Host.Core.run Sys2Proof.core is.length s = .next t := by
  induction is generalizing s with
  | nil =>
    have hs : s.setInbox rest = s := State.ext rfl rfl hin.symm rfl
    rw [hs] at h; exact h
  | cons i is ih =>
    obtain ⟨hi, his⟩ := List.forall_mem_cons.1 hwf
    obtain ⟨v, he, hrun⟩ := runInstrs_cons_eq_next_iff.1 h
    have hstep : Sys2Proof.core.step s = .next (v.setInbox (is.map commandOf ++ rest)) :=
      (step_commandOf hi hin).trans (exec_setInbox (s := s.setInbox rest) _ he)
    have hv : (v.setInbox (is.map commandOf ++ rest)).setInbox rest = v := State.ext rfl rfl (exec_inbox he).symm rfl
    exact (core_run_succ hstep).trans (ih his rfl (hv.symm ▸ hrun))

/-- No command writes the cap (R192). -/
theorem exec_maxWriteBytes {i : Instr} {s t : State} (h : exec i s = .next t) : t.maxWriteBytes = s.maxWriteBytes := by
  obtain ⟨st, v, c, ht, -⟩ := exec_next_cases h
  rw [ht, respond_maxWriteBytes, setHash_maxWriteBytes]

/-- A run writes neither the host's coming moves nor the cap. -/
theorem runInstrs_keeps_inbox_cap {is : List Instr} {s t : State} (h : runInstrs is s = .next t) :
    t.inbox = s.inbox ∧ t.maxWriteBytes = s.maxWriteBytes := by
  induction is generalizing s with
  | nil => cases h; exact ⟨rfl, rfl⟩
  | cons i is ih =>
    obtain ⟨v, he, hrun⟩ := runInstrs_cons_eq_next_iff.1 h
    obtain ⟨hinbox, hcap⟩ := ih hrun
    exact ⟨hinbox.trans (exec_inbox he), hcap.trans (exec_maxWriteBytes he)⟩

/-! ### The streaming path (R151) -/

/-- The commands of the streaming path: a session begun, written chunk by chunk, and its digest taken. -/
def streamingPath (seed : Word) (chunks : List Payload) : List Instr :=
  .xinit seed :: (chunks.map .xwrite ++ [.xdigest])

@[simp] theorem streamingPath_length (seed : Word) (chunks : List Payload) :
    (streamingPath seed chunks).length = chunks.length + 2 := by
  simp [streamingPath]

theorem streamingPath_commands (seed : Word) (chunks : List Payload) (rest : List HostEvent) :
    (streamingPath seed chunks).map commandOf ++ rest =
      commandOf (.xinit seed) :: (chunks.map (fun b => commandOf (.xwrite b)) ++ commandOf .xdigest :: rest) := by
  simp [streamingPath]

/-- A chunk within any cap fits the `LEN` field. -/
theorem streamingPath_wf {chunks : List Payload} {cap : Len} (seed : Word) (hcap : ∀ b ∈ chunks, b.length ≤ cap.toNat) :
    ∀ i ∈ streamingPath seed chunks, i.wf = true := by
  have hchunks : ∀ i ∈ chunks.map Instr.xwrite, i.wf = true := List.forall_mem_map.2 fun b hb =>
    wf_of_payload_length_lt ((hcap b hb).trans_lt cap.isLt)
  rw [streamingPath, List.forall_mem_cons, List.forall_mem_append, List.forall_mem_singleton]
  exact ⟨rfl, hchunks, rfl⟩

/-- Writes within the cap in phase Streaming each answer how many bytes they took (R133). -/
theorem runInstrs_xwrites_responses {chunks : List Payload} {s t : State} (hp : s.hash.phase = .streaming)
    (hcap : ∀ b ∈ chunks, b.length ≤ s.maxWriteBytes.toNat) (h : runInstrs (chunks.map .xwrite) s = .next t) :
    t.responses = s.responses ++ chunks.map fun b => responseWord .ok 0 (BitVec.ofNat 64 b.length) := by
  induction chunks generalizing s with
  | nil => cases h; exact (List.append_nil _).symm
  | cons b chunks ih =>
    obtain ⟨hfirst, hrest⟩ := List.forall_mem_cons.1 hcap
    obtain ⟨v, he, hrun⟩ := runInstrs_cons_eq_next_iff.1 h
    obtain ⟨-, hphase⟩ := exec_xwrite_seed_phase he
    have hanswer : xwriteResponse s.hash.phase.isStreaming s.maxWriteBytes b =
        responseWord .ok 0 (BitVec.ofNat 64 b.length) := by
      rw [xwriteResponse, hp, if_neg (by simp), if_neg (Nat.not_lt.2 hfirst)]
    rw [ih (hphase.trans hp) (exec_maxWriteBytes he ▸ hrest) hrun, execXwrite_responses he, hanswer, List.append_assoc]
    rfl

/-- The streaming path completes from every state, and its last response is the digest of the concatenation. -/
theorem runInstrs_streamingPath {chunks : List Payload} {s : State} (seed : Word)
    (hcap : ∀ b ∈ chunks, b.length ≤ s.maxWriteBytes.toNat) (hn : chunks.flatten.length < 2 ^ 64) :
    ∃ t, runInstrs (streamingPath seed chunks) s = .next t ∧
      t.responses = s.responses ++ (responseWord .ok 0 0 ::
        (chunks.map (fun b => responseWord .ok 0 (BitVec.ofNat 64 b.length)) ++
          [responseWord .ok (xxh32 chunks.flatten seed) 0])) := by
  have hzero : (initState seed).totalLen.toNat + chunks.flatten.length < 2 ^ 64 := by simpa using hn
  obtain ⟨u, hwrites, huh⟩ := runInstrs_xwrites (s := (s.setHash (initState seed)).respond .ok 0 0) rfl
    (initState_buf_length_lt seed) hcap hzero
  have hur := runInstrs_xwrites_responses (s := (s.setHash (initState seed)).respond .ok 0 0) rfl hcap hwrites
  have hu : u.hash = sessionState seed chunks.flatten := huh.trans (absorb_initState _ _)
  have hdigest : exec .xdigest u = .next _ := execXdigest_streaming u (by rw [hu]; rfl)
  refine ⟨_, runInstrs_cons_eq_next_iff.2 ⟨_, exec_xinit seed s, runInstrs_append_eq_next_iff.2
    ⟨u, hwrites, runInstrs_cons_eq_next_iff.2 ⟨_, hdigest, rfl⟩⟩⟩, ?_⟩
  rw [respond_responses, setHash_responses, hur, hu, digestOf_sessionState, respond_responses, setHash_responses]
  simp

/-- Settles O41: the steps run the streaming path, and `XSUM` answers the same `XXH32`. -/
theorem xsumEqualsStreamingPath : Obligations.XsumEqualsStreamingPath := by
  intro seed chunks rest s hcap hn hin
  obtain ⟨t, hrun, hresp⟩ := runInstrs_streamingPath (s := s.setInbox rest) seed hcap hn
  obtain ⟨hinbox, htcap⟩ := runInstrs_keeps_inbox_cap hrun
  have hsteps := core_run_of_runInstrs (streamingPath_wf seed hcap) (hin.trans (streamingPath_commands _ _ _).symm) hrun
  rw [streamingPath_length] at hsteps
  exact ⟨t, hsteps, hinbox, hresp, fun hwhole => exec_xsum_accepted seed (htcap ▸ hwhole)⟩

end Sys2Proof.Machine
end

