-- ==== Sys2Proof/Proofs/Exceptions.lean ====
section
/-!
SUPPORT. Exceptions (spec/60_exceptions.md): which error a command ends with (R160 to R164), that an error is its
response and nothing else (R165), and idling (R173).
-/

namespace Sys2Proof

/-! ### Illegal commands (R163) -/

theorem decode_error_iff_not_ok (cw : Desc) (P : Payload) :
    (∃ why, decode cw P = .error why) ↔ ¬ ∃ i, decode cw P = .ok i := by
  rcases decode cw P with why | i
  · simp
  · simp

/-- Settles O5: a command is illegal exactly when it is not legal, that is when one of the checks of R75 fails. -/
theorem illegalExactlyWhenMalformed : Obligations.IllegalExactlyWhenMalformed := by
  intro cw P
  rw [decode_error_iff_not_ok, decode_ok_iff]
  simp only [not_and_or, Classical.not_imp, ne_eq]

end Sys2Proof

namespace Sys2Proof.Machine

/-! ### The error of a command (R160, R164) -/

/-- The error that a legal command ends with, if any: the rows of R170, in the order of R164. -/
def errorOf (i : Instr) (s : State) : Option ErrorKind :=
  match i with
  | .xwrite P =>
    if s.hash.phase ≠ .streaming then some .invalidState
    else if s.maxWriteBytes.toNat < P.length then some .lengthLimitExceeded else none
  | .xsum _ P => if s.maxWriteBytes.toNat < P.length then some .lengthLimitExceeded else none
  | _ => none

/-- The error that the command `(CW, P)` ends with, if any: `IllegalCommand` comes first (R164). -/
def commandError (cw : Desc) (P : Payload) (s : State) : Option ErrorKind :=
  match decode cw P with
  | .error _ => some .illegalCommand
  | .ok i => errorOf i s

theorem errorOf_setInbox (i : Instr) (s : State) (evs : List HostEvent) : errorOf i (s.setInbox evs) = errorOf i s := by
  cases i <;> rfl

theorem isStreaming_eq_false_iff (p : Phase) : p.isStreaming = false ↔ p ≠ .streaming := by
  cases p with
  | streaming => simp
  | finalized d => simp

/-! #### When a command ends with each of the three errors -/

theorem errorOf_ne_illegalCommand (i : Instr) (s : State) : errorOf i s ≠ some .illegalCommand := by
  cases i with
  | xwrite P => by_cases hp : s.hash.phase = .streaming <;> simp [errorOf, hp]
  | xsum => simp [errorOf]
  | xinit | xreset | xdigest | xinfo => nofun

theorem errorOf_eq_invalidState_iff (i : Instr) (s : State) :
    errorOf i s = some .invalidState ↔ i = .xwrite i.payload ∧ s.hash.phase ≠ .streaming := by
  cases i with
  | xwrite P => by_cases hp : s.hash.phase = .streaming <;> simp [errorOf, hp, Instr.payload]
  | xsum => simp [errorOf]
  | xinit | xreset | xdigest | xinfo => simp [errorOf]

theorem errorOf_eq_lengthLimitExceeded_iff (i : Instr) (s : State) :
    errorOf i s = some .lengthLimitExceeded ↔
      s.maxWriteBytes.toNat < i.payload.length ∧
        ((i = .xwrite i.payload ∧ s.hash.phase = .streaming) ∨ ∃ seed, i = .xsum seed i.payload) := by
  cases i with
  | xwrite P => by_cases hp : s.hash.phase = .streaming <;> simp [errorOf, hp, Instr.payload]
  | xsum => simp [errorOf, Instr.payload]
  | xinit | xreset | xdigest | xinfo => simp [errorOf]

theorem commandError_eq_illegalCommand_iff (cw : Desc) (P : Payload) (s : State) :
    commandError cw P s = some .illegalCommand ↔ ∃ why, decode cw P = .error why := by
  unfold commandError
  rcases decode cw P with why | i
  · simp
  · simp [errorOf_ne_illegalCommand]

theorem commandError_eq_invalidState_iff (cw : Desc) (P : Payload) (s : State) :
    commandError cw P s = some .invalidState ↔ decode cw P = .ok (.xwrite P) ∧ s.hash.phase ≠ .streaming := by
  unfold commandError
  rcases hd : decode cw P with why | i
  · simp
  · simp [errorOf_eq_invalidState_iff, payload_of_decode hd]

theorem commandError_eq_lengthLimitExceeded_iff (cw : Desc) (P : Payload) (s : State) :
    commandError cw P s = some .lengthLimitExceeded ↔
      s.maxWriteBytes.toNat < P.length ∧
        ((decode cw P = .ok (.xwrite P) ∧ s.hash.phase = .streaming) ∨ ∃ seed, decode cw P = .ok (.xsum seed P)) := by
  unfold commandError
  rcases hd : decode cw P with why | i
  · simp
  · simp [errorOf_eq_lengthLimitExceeded_iff, payload_of_decode hd]

/-! ### What an error does (R165) -/

/-- A legal command that answers ends with its error's response and nothing else, or with `OK`. -/
theorem exec_answer_cases {i : Instr} {s t : State} (h : exec i s = .next t) :
    (∃ e, errorOf i s = some e ∧ t = s.respond e.status 0 0) ∨
    (errorOf i s = none ∧ ∃ v c, t = (s.setHash t.hash).respond .ok v c) := by
  cases i with
  | xinit seed => cases h; exact .inr ⟨rfl, _, _, rfl⟩
  | xreset => cases h; exact .inr ⟨rfl, _, _, rfl⟩
  | xwrite P =>
    rw [exec_xwrite] at h
    rcases execXwrite_cases P s with ⟨hp, e⟩ | ⟨hp, hl, e⟩ | ⟨-, -, -, e⟩ | ⟨hp, hl, -, e⟩ <;> rw [e] at h <;> cases h
    · exact .inl ⟨.invalidState, if_pos ((isStreaming_eq_false_iff _).1 hp), rfl⟩
    · exact .inl ⟨.lengthLimitExceeded, by simp [errorOf, hp, hl], rfl⟩
    · exact .inr ⟨by simp [errorOf, hp, hl], _, _, rfl⟩
  | xdigest =>
    rw [exec_xdigest] at h
    rcases hp : s.hash.phase with - | d
    · rw [execXdigest_streaming s hp] at h; cases h
      exact .inr ⟨rfl, _, _, rfl⟩
    · rw [execXdigest_finalized s d hp] at h; cases h
      exact .inr ⟨rfl, _, _, rfl⟩
  | xsum seed P =>
    rw [exec_xsum] at h
    rcases execXsum_cases seed P s with ⟨hl, e⟩ | ⟨hl, e⟩ <;> rw [e] at h <;> cases h
    · exact .inl ⟨.lengthLimitExceeded, if_pos hl, rfl⟩
    · exact .inr ⟨if_neg (Nat.not_lt.2 hl), _, _, rfl⟩
  | xinfo => cases h; exact .inr ⟨rfl, _, _, rfl⟩

/-- The same of the step of a command, legal or not. -/
theorem step_answer_cases {s t : State} {cw : Desc} {P : Payload} {rest : List HostEvent}
    (hin : s.inbox = .command cw P :: rest) (h : step s = .next t) :
    (∃ e, commandError cw P s = some e ∧ t = (s.setInbox rest).respond e.status 0 0) ∨
    (commandError cw P s = none ∧ ∃ v c, t = ((s.setInbox rest).setHash t.hash).respond .ok v c) := by
  unfold commandError
  rcases step_command_cases hin h with ⟨why, hd, ht⟩ | ⟨i, hd, he⟩ <;> simp only [hd]
  · exact .inl ⟨.illegalCommand, rfl, ht⟩
  · rw [← errorOf_setInbox i s rest]
    exact exec_answer_cases he

theorem errorKind_code_eq_iff (e e' : ErrorKind) : e.status.code = e'.status.code ↔ e = e' := by
  cases e <;> cases e' <;> decide

theorem invalidState_word : responseWord .invalidState 0 0 = 0x01000000000000000000000000000000 := by decide

theorem lengthLimitExceeded_word : responseWord .lengthLimitExceeded 0 0 = 0x02000000000000000000000000000000 := by
  decide

theorem errorKind_word (e : ErrorKind) :
    responseWord e.status 0 0 = 0x01000000000000000000000000000000 ∨
    responseWord e.status 0 0 = 0x02000000000000000000000000000000 ∨
    responseWord e.status 0 0 = 0x03000000000000000000000000000000 := by
  cases e with
  | invalidState => exact .inl invalidState_word
  | lengthLimitExceeded => exact .inr (.inl lengthLimitExceeded_word)
  | illegalCommand => exact .inr (.inr illegalCommand_word)

/-- Settles O48: of the ways a command's step can answer, those with a status other than `OK` raise an error. -/
theorem errorChangesNoRegister : Obligations.ErrorChangesNoRegister := by
  intro s t cw P rest rw hin h hresp hbad
  rcases step_answer_cases hin h with ⟨e, -, rfl⟩ | ⟨-, v, c, ht⟩
  · obtain rfl : responseWord e.status 0 0 = rw := by simpa using hresp
    exact ⟨rfl, errorKind_word e⟩
  · obtain rfl : responseWord .ok v c = rw := by rw [ht] at hresp; simpa using hresp
    exact absurd (rwStatus_responseWord _ _ _) hbad

@[simp] theorem rwCount_responseWord (st : Status) (v : Word) (c : Len) : rwCount (responseWord st v c) = c :=
  word_bits_63_0 _ _ _ _

/-- The one response of a command's step: its status is that of the command's error, or `OK` when it has none. -/
theorem step_response {s t : State} {cw : Desc} {P : Payload} {rest : List HostEvent}
    (hin : s.inbox = .command cw P :: rest) (h : step s = .next t) :
    ∃ rw, t.responses = s.responses ++ [rw] ∧
      (∀ e : ErrorKind, rwStatus rw = e.status.code ↔ commandError cw P s = some e) ∧
      (rwStatus rw ≠ 0x00 → rwValue rw = 0 ∧ rwCount rw = 0) ∧ (rwStatus rw).toNat ≤ 3 := by
  rcases step_answer_cases hin h with ⟨e, he, rfl⟩ | ⟨he, v, c, ht⟩
  · refine ⟨_, respond_responses _ _ _ _, fun e' => ?_,
      fun _ => ⟨rwValue_responseWord _ _ _, rwCount_responseWord _ _ _⟩, ?_⟩
    · rw [rwStatus_responseWord, he, Option.some.injEq]
      exact errorKind_code_eq_iff e e'
    · rw [rwStatus_responseWord]
      cases e <;> decide
  · refine ⟨responseWord .ok v c, by rw [ht]; rfl, fun e' => ?_,
      fun hbad => absurd (rwStatus_responseWord _ _ _) hbad, ?_⟩
    · rw [rwStatus_responseWord, he]
      exact iff_of_false (errorKind_code_ne_ok e').symm nofun
    · rw [rwStatus_responseWord]
      exact Nat.zero_le _

/-- Settles O31: the status is that of the command's one error, and each kind of error has its condition. -/
theorem statusExactly : Obligations.StatusExactly := by
  intro s t cw P rest hin h
  obtain ⟨rw, hresp, hstatus, hzero, hle⟩ := step_response hin h
  exact ⟨rw, hresp, (hstatus .illegalCommand).trans (commandError_eq_illegalCommand_iff cw P s),
    (hstatus .invalidState).trans (commandError_eq_invalidState_iff cw P s),
    (hstatus .lengthLimitExceeded).trans (commandError_eq_lengthLimitExceeded_iff cw P s), hzero, hle⟩

/-! ### `InvalidState` and `LengthLimitExceeded` (R161, R162) -/

/-- A legal command that has an error raises it, whatever else holds. -/
theorem exec_eq_raise {i : Instr} {s : State} {e : ErrorKind} (he : errorOf i s = some e) : exec i s = raise e s := by
  cases e with
  | illegalCommand => exact absurd he (errorOf_ne_illegalCommand i s)
  | invalidState =>
    obtain ⟨hi, hp⟩ := (errorOf_eq_invalidState_iff i s).1 he
    rw [hi, exec_xwrite, execXwrite, if_pos ((isStreaming_eq_false_iff _).2 hp)]
  | lengthLimitExceeded =>
    obtain ⟨hl, ⟨hi, hp⟩ | ⟨seed, hi⟩⟩ := (errorOf_eq_lengthLimitExceeded_iff i s).1 he
    · rw [hi, exec_xwrite, execXwrite, hp, if_neg (by simp), if_pos hl]
    · rw [hi, exec_xsum, execXsum, if_pos hl]

theorem status_code_eq_of_responseWord_eq {st st' : Status} {v v' : Word} {c c' : Len}
    (h : responseWord st v c = responseWord st' v' c') : st.code = st'.code := by
  rw [← rwStatus_responseWord st v c, h, rwStatus_responseWord]

/-- Answering an error's response and changing nothing else is having that error. -/
theorem exec_eq_error_iff (i : Instr) (s : State) (e : ErrorKind) :
    exec i s = .next (s.respond e.status 0 0) ↔ errorOf i s = some e := by
  refine ⟨fun h => ?_, exec_eq_raise⟩
  rcases exec_answer_cases h with ⟨e', he, ht⟩ | ⟨-, v, c, ht⟩
  · have hword : responseWord e'.status 0 0 = responseWord e.status 0 0 := by
      simpa using (congrArg State.responses ht).symm
    rw [he, (errorKind_code_eq_iff e' e).1 (status_code_eq_of_responseWord_eq hword)]
  · have hword : responseWord e.status 0 0 = responseWord .ok v c := by simpa using congrArg State.responses ht
    exact absurd (status_code_eq_of_responseWord_eq hword) (errorKind_code_ne_ok e)

/-- Either initialisation is an `XINIT`, of its operand or of the seed that the session has (R120, R121). -/
theorem exec_isInit {i : Instr} (s : State) (hi : isInit i = true) : ∃ seed, exec i s = exec (.xinit seed) s := by
  cases i with
  | xinit seed => exact ⟨seed, rfl⟩
  | xreset => exact ⟨s.hash.seed, exec_xreset_eq_xinit s⟩
  | xwrite | xdigest | xsum | xinfo => cases hi

/-- Settles O29: `InvalidState` is the error of a write in phase Finalized alone, and an initialisation leaves phase
Streaming and `TOTAL_LEN = 0`, so that a write within the cap passes every check. -/
theorem xwriteAfterDigestIsInvalidState : Obligations.XwriteAfterDigestIsInvalidState := by
  intro P s
  have hiff := exec_eq_error_iff (.xwrite P) s .invalidState
  rw [errorOf_eq_invalidState_iff, ErrorKind.status, respond_eq, invalidState_word] at hiff
  refine ⟨fun d hp => hiff.2 ⟨rfl, by rw [hp]; nofun⟩, fun hp h => ?_, fun i hi hcap => ?_⟩
  · obtain ⟨-, hne⟩ := hiff.1 h
    exact hne hp
  · obtain ⟨seed, hinit⟩ := exec_isInit s hi
    have hzero : (initState seed).totalLen.toNat + P.length < 2 ^ 64 := by
      simpa using hcap.trans_lt s.maxWriteBytes.isLt
    exact ⟨_, _, hinit.trans (exec_xinit seed s),
      exec_xwrite_accepted (s := (s.setHash (initState seed)).respond .ok 0 0) rfl hcap hzero, rfl⟩

/-- Settles O30: the error is decided by the cap alone; a payload that `LEN` can count is within the largest cap. -/
theorem overLongCommandIsLengthLimitExceeded : Obligations.OverLongCommandIsLengthLimitExceeded := by
  intro P s
  have hiff := fun i => exec_eq_error_iff i s .lengthLimitExceeded
  simp only [errorOf_eq_lengthLimitExceeded_iff, ErrorKind.status, respond_eq, lengthLimitExceeded_word] at hiff
  refine ⟨fun hp => (hiff (.xwrite P)).trans ?_, fun seed => (hiff (.xsum seed P)).trans ?_, fun hcap hwf => ?_⟩
  · exact and_iff_left (.inl ⟨rfl, hp⟩)
  · exact and_iff_left (.inr ⟨seed, rfl⟩)
  · have hfits : P.length < 2 ^ 64 := of_decide_eq_true hwf
    rw [hcap, Nat.not_lt]
    exact Nat.le_pred_of_lt hfits

/-! ### Idling (R173) -/

/-- Settles O10: an empty inbox has no move to take. -/
theorem idleStepKeepsState : Obligations.IdleStepKeepsState := by
  intro s hin
  rw [step, takeEvent_nil s hin]

end Sys2Proof.Machine
end

