-- ==== Sys2Proof/Proofs/ResetHazards.lean ====
section
/-!
SUPPORT. Reset and hazards (spec/70_reset_and_hazards.md): what hardware reset leaves (R190, R191), that the cap stays
(R192), that reset is the session of nothing written (R193), a long session's digest (R199), and that every step answers
but for the one refusal (R203).
-/

namespace Sys2Proof.Machine

/-! ### Hardware reset (R190, R191, R193) -/

/-- A reset's step, between commands or abandoning one. -/
theorem step_of_reset {s : State} {e : HostEvent} {rest : List HostEvent} (hin : s.inbox = e :: rest)
    (he : e = .reset ∨ ∃ cw P, e = .resetDuring cw P) : step s = .next (hardwareReset (s.setInbox rest)) := by
  rw [step, takeEvent_cons s e rest hin]
  rcases he with rfl | ⟨cw, P, rfl⟩
  · rfl
  · rfl

/-- Settles O26: either reset puts the registers at the values of R190, whatever they were. -/
theorem hardwareResetFromAnyState : Obligations.HardwareResetFromAnyState := by
  intro s e rest hin he
  obtain ⟨hvalues, -⟩ := resetRegisterValues
  rw [step_of_reset hin he, hardwareReset, ← reset_hash, hvalues, setHash_eq, setInbox_eq]

/-- Settles O52: the registers after reset are `InitState(0)`. -/
theorem resetIsEmptySession : Obligations.ResetIsEmptySession :=
  ⟨isSession_initState _, initState_eq_sessionState _⟩

/-! ### The cap (R192) -/

/-- Settles O60: neither a reset, nor an error's response, nor a command writes the cap. -/
theorem capNeverChanges : Obligations.CapNeverChanges := by
  intro s t h
  rcases step_next_cases h with ⟨-, rfl⟩ | ⟨-, rest, -, -, rfl⟩ | ⟨-, -, rest, -, -, -, rfl⟩ | ⟨-, -, rest, i, -, -, he⟩
  · rfl
  · rfl
  · rfl
  · exact exec_maxWriteBytes (s := s.setInbox rest) he

/-! ### The digest of a long session (R199) -/

/-- From 16 bytes on, `Finalize` starts from the merged lanes and counts modulo `2^32` (R140 steps 1 and 2). -/
theorem finalize_of_sixteen_le (seed : Word) {total : Len} (L : Lanes) (T : Payload) (h : 16 ≤ total.toNat) :
    finalize seed total L T = avalanche (mixTail (merge L + BitVec.ofNat 32 (total.toNat % 2 ^ 32)) T) := by
  rw [finalize, finalizeStart_eq, if_pos h, total_low_word]

/-- Settles O37: both counts are past the branch that reads the seed, and enter by their low 32 bits alone. -/
theorem digestUsesLowLengthBits : Obligations.DigestUsesLowLengthBits := by
  intro seed seed' total total' L T h h' hmod
  rw [finalize_of_sixteen_le seed L T h, finalize_of_sixteen_le seed' L T h', hmod]

/-! ### Every step answers, but for one refusal (R203) -/

/-- A command answers, or it is the overflowing write of R130. -/
theorem exec_answers_or_overflows (i : Instr) (s : State) :
    (∃ t, exec i s = .next t) ∨ (exec i s = .refused .totalLenOverflow ∧ overflows i s) := by
  rcases he : exec i s with t | r | r
  · exact .inl ⟨t, rfl⟩
  · exact absurd he outcome_not_fault
  · obtain ⟨rfl, hover⟩ := (refusedExactlyOnLengthOverflow i s r).1 he
    exact .inr ⟨rfl, hover⟩

/-- Settles O11: idling, a reset and an illegal command each answer, so only a legal command can be refused. -/
theorem stepAnswersUnlessOverflow : Obligations.StepAnswersUnlessOverflow := by
  intro s
  rcases hin : s.inbox with - | ⟨e, rest⟩
  · exact .inl ⟨s, idleStepKeepsState s hin⟩
  · cases e with
    | reset => exact .inl ⟨_, step_of_reset hin (.inl rfl)⟩
    | resetDuring cw P => exact .inl ⟨_, step_of_reset hin (.inr ⟨cw, P, rfl⟩)⟩
    | command cw P =>
      rcases decode_ok_or_error cw P with ⟨i, hd⟩ | ⟨why, hd⟩
      · rw [stepRunsDecodedInstruction s cw P rest i hin hd]
        exact (exec_answers_or_overflows i _).imp_right fun ⟨hrefused, hover⟩ =>
          ⟨hrefused, cw, P, rest, i, rfl, hd, hover⟩
      · exact .inl ⟨_, step_of_decode_error hin hd⟩

end Sys2Proof.Machine
end
